-- ==== Sys2Proof/Word.lean ====
section
/-! DEFINITION. The word types of the PotaDOS core (spec/00_scope.md R7, R9, R10). -/

namespace Sys2Proof

/-- A 16-bit value: a register, a RAM cell, a data or program address (R7, R10). -/
abbrev Word := BitVec 16

/-- A 22-bit instruction word (R80). -/
abbrev InstrWord := BitVec 22

/-- A register index 0 to 15 (R20, R100). -/
abbrev RegIdx := Fin 16

end Sys2Proof
end

