-- ==== Sys2Proof/Syntax.lean ====
section
/-! DEFINITION. The instructions, one constructor per row of spec/opcode_table.json (30_encoding.md R101). -/

namespace Sys2Proof

/-- The 43 instructions. A destination register stands first, as in the spec's syntax (R112). -/
inductive Instr where
  /-- R219, the all-zero word. -/
  | nop
  /-- R200. -/
  | jmp (k16 : BitVec 16)
  /-- R170. -/
  | mov (rd : RegIdx) (k16 : BitVec 16)
  /-- R201. -/
  | call (k16 : BitVec 16)
  /-- R206. -/
  | jge (r1 r2 : RegIdx) (off8 : BitVec 8)
  /-- R207. -/
  | jl (r1 r2 : RegIdx) (off8 : BitVec 8)
  /-- R208. -/
  | je (r1 r2 : RegIdx) (off8 : BitVec 8)
  /-- R209. -/
  | jne (r1 r2 : RegIdx) (off8 : BitVec 8)
  /-- R210. -/
  | jae (r1 r2 : RegIdx) (off8 : BitVec 8)
  /-- R211. -/
  | jb (r1 r2 : RegIdx) (off8 : BitVec 8)
  /-- R213. -/
  | ijne (r1 r2 : RegIdx) (off8 : BitVec 8)
  /-- R214. -/
  | djge (r1 r2 : RegIdx) (off8 : BitVec 8)
  /-- R126. -/
  | add (rd ra rb : RegIdx)
  /-- R127. -/
  | addi (rd ra : RegIdx) (k8 : BitVec 8)
  /-- R128. -/
  | sub (rd ra rb : RegIdx)
  /-- R129. -/
  | subi (rd ra : RegIdx) (k8 : BitVec 8)
  /-- R130. -/
  | asr (rd ra rb : RegIdx)
  /-- R131. -/
  | asri (rd ra : RegIdx) (k8 : BitVec 8)
  /-- R132. -/
  | lsr (rd ra rb : RegIdx)
  /-- R133. -/
  | lsri (rd ra : RegIdx) (k8 : BitVec 8)
  /-- R134. -/
  | lsl (rd ra rb : RegIdx)
  /-- R135. -/
  | lsli (rd ra : RegIdx) (k8 : BitVec 8)
  /-- R136. -/
  | mul (rd ra rb : RegIdx)
  /-- R137. -/
  | muli (rd ra : RegIdx) (k8 : BitVec 8)
  /-- R140. -/
  | or (rd ra rb : RegIdx) (nA nB : Bool)
  /-- R141. -/
  | xor (rd ra rb : RegIdx) (nA nB : Bool)
  /-- R142. -/
  | nor (rd ra rb : RegIdx) (nA nB : Bool)
  /-- R143. -/
  | xnor (rd ra rb : RegIdx) (nA nB : Bool)
  /-- R196. -/
  | push (ra : RegIdx)
  /-- R198. -/
  | pop (rd : RegIdx)
  /-- R216. -/
  | int (n : BitVec 4)
  /-- R217, the fixed pattern 0x100400. -/
  | hlt
  /-- R154. -/
  | fadd (rd ra rb : RegIdx)
  /-- R155. -/
  | fsub (rd ra rb : RegIdx)
  /-- R156. -/
  | fmul (rd ra rb : RegIdx)
  /-- R157. -/
  | fdiv (rd ra rb : RegIdx)
  /-- R159. -/
  | ftoi (rd ra : RegIdx)
  /-- R160. -/
  | itof (rd ra : RegIdx)
  /-- R161. -/
  | utof (rd ra : RegIdx)
  /-- R173. -/
  | ldx (rd rp : RegIdx) (sc : BitVec 2) (off4 : BitVec 4)
  /-- R174. -/
  | stx (rs rp : RegIdx) (sc : BitVec 2) (off4 : BitVec 4)
  /-- R176. -/
  | ld (rd rp : RegIdx) (off6 : BitVec 6)
  /-- R177. -/
  | st (rs rp : RegIdx) (off6 : BitVec 6)
  deriving DecidableEq, Repr

end Sys2Proof
end

