-- ==== Sys2Proof/WellFormed.lean ====
section
/-! DEFINITION. Which terms of Instr are the reading of some instruction word. The types of the fields carry their
ranges; what is left is the precedence of the opcode table (30_encoding.md R92, R93, R94, R101). -/

namespace Sys2Proof

/-- True for the instructions that decoding can answer. Three terms have another name for the same word
(DEDUCED, log entry 8): `mov` to register 7 is `jmp`, `mov r0, #0` is `nop`, `int #0` is `hlt`. -/
def Instr.wellFormed : Instr → Bool
  | .nop => true
  | .jmp _ => true
  | .mov rd k16 => rd ≠ 7 ∧ ¬ (rd = 0 ∧ k16 = 0#16)
  | .call _ => true
  | .jge _ _ _ => true
  | .jl _ _ _ => true
  | .je _ _ _ => true
  | .jne _ _ _ => true
  | .jae _ _ _ => true
  | .jb _ _ _ => true
  | .ijne _ _ _ => true
  | .djge _ _ _ => true
  | .add _ _ _ => true
  | .addi _ _ _ => true
  | .sub _ _ _ => true
  | .subi _ _ _ => true
  | .asr _ _ _ => true
  | .asri _ _ _ => true
  | .lsr _ _ _ => true
  | .lsri _ _ _ => true
  | .lsl _ _ _ => true
  | .lsli _ _ _ => true
  | .mul _ _ _ => true
  | .muli _ _ _ => true
  | .or _ _ _ _ _ => true
  | .xor _ _ _ _ _ => true
  | .nor _ _ _ _ _ => true
  | .xnor _ _ _ _ _ => true
  | .push _ => true
  | .pop _ => true
  | .int n => n ≠ 0#4
  | .hlt => true
  | .fadd _ _ _ => true
  | .fsub _ _ _ => true
  | .fmul _ _ _ => true
  | .fdiv _ _ _ => true
  | .ftoi _ _ => true
  | .itof _ _ => true
  | .utof _ _ => true
  | .ldx _ _ _ _ => true
  | .stx _ _ _ _ => true
  | .ld _ _ _ => true
  | .st _ _ _ => true

end Sys2Proof
end

