-- ==== Sys2Proof/Decode.lean ====
section
/-! DEFINITION. The decoder and the encoder of the 22-bit instruction word (spec/30_encoding.md R80 to R102). The
positions and codes are the spec's own decisions D1 to D16 (UNVERIFIED against real words, log entry 10). -/

namespace Sys2Proof

/-- Why a word is no instruction (R98, R102). The fatal error's record keeps the word only (R231); these names are the
model's. -/
inductive DecodeReject where
  /-- A branch word with w[12] = 1. -/
  | branchPad
  /-- A call word with w[3:0] ≠ 7. -/
  | callDst
  /-- An ALU-long register-form word with w[11:8] ≠ 0. -/
  | aluLongOperand
  /-- An ALU-short word with w[12] = 1. -/
  | aluShortFlag
  /-- A misc word with subop5 in 2, 3, 5, 6, 7, 15. -/
  | miscSubop
  /-- push, pop, int, ftoi, itof or utof with an unused register field that is not 0. -/
  | miscField
  deriving DecidableEq, Repr

/-- `w[lo+n-1 : lo]` (R9). -/
def field (w : InstrWord) (lo n : Nat) : BitVec n := w.extractLsb' lo n

/-- The 4-bit register field whose lowest bit is `lo` (R100). -/
def regField (w : InstrWord) (lo : Nat) : RegIdx := (field w lo 4).toFin

/-- Branch format (R85, R97). -/
def decodeBranch (w : InstrWord) : Except DecodeReject Instr :=
  let r1 := regField w 0
  let r2 := regField w 13
  let off8 := field w 4 8
  if field w 12 1 ≠ 0#1 then .error .branchPad
  else match (field w 17 3).toNat with
    | 0 => .ok (.jge r1 r2 off8)
    | 1 => .ok (.jl r1 r2 off8)
    | 2 => .ok (.je r1 r2 off8)
    | 3 => .ok (.jne r1 r2 off8)
    | 4 => .ok (.jae r1 r2 off8)
    | 5 => .ok (.jb r1 r2 off8)
    | 6 => .ok (.ijne r1 r2 off8)
    | _ => .ok (.djge r1 r2 off8)

/-- ALU-long format (R86, R95): `reg` and `imm` are the two forms of the operation. -/
def decodeAluLong (reg : RegIdx → RegIdx → RegIdx → Instr) (imm : RegIdx → RegIdx → BitVec 8 → Instr)
    (w : InstrWord) : Except DecodeReject Instr :=
  if field w 12 1 = 1#1 then .ok (imm (regField w 0) (regField w 13) (field w 4 8))
  else if field w 8 4 ≠ 0#4 then .error .aluLongOperand
  else .ok (reg (regField w 0) (regField w 13) (regField w 4))

/-- ALU-short format (R87): bit 8 the operator, bits 9, 10 and 11 the negations of A, B and the output. -/
def decodeAluShort (w : InstrWord) : Except DecodeReject Instr :=
  let rd := regField w 0
  let ra := regField w 13
  let rb := regField w 4
  let nA := field w 9 1 == 1#1
  let nB := field w 10 1 == 1#1
  if field w 12 1 ≠ 0#1 then .error .aluShortFlag
  else match (field w 11 1).toNat, (field w 8 1).toNat with
    | 0, 0 => .ok (.or rd ra rb nA nB)
    | 0, _ => .ok (.xor rd ra rb nA nB)
    | _, 0 => .ok (.nor rd ra rb nA nB)
    | _, _ => .ok (.xnor rd ra rb nA nB)

/-- The operations of the misc group that subop5 selects (R90, R96). -/
def decodeMiscOp (w : InstrWord) : Except DecodeReject Instr :=
  let rd := regField w 0
  let ra := regField w 13
  let rb := regField w 4
  match (field w 8 5).toNat with
  | 0 => if rb = 0 ∧ rd = 0 then .ok (.push ra) else .error .miscField
  | 1 => if ra = 0 ∧ rb = 0 then .ok (.pop rd) else .error .miscField
  | 4 => if ra = 0 ∧ rb = 0 then .ok (.int (field w 0 4)) else .error .miscField
  | 8 => .ok (.fadd rd ra rb)
  | 9 => .ok (.fsub rd ra rb)
  | 10 => .ok (.fmul rd ra rb)
  | 11 => .ok (.fdiv rd ra rb)
  | 12 => if rb = 0 then .ok (.ftoi rd ra) else .error .miscField
  | 13 => if rb = 0 then .ok (.itof rd ra) else .error .miscField
  | 14 => if rb = 0 then .ok (.utof rd ra) else .error .miscField
  | _ => .error .miscSubop

/-- The misc group: the structural subop3 is tested first (R88, R89, R96). -/
def decodeMisc (w : InstrWord) : Except DecodeReject Instr :=
  let rd := regField w 0
  let rp := regField w 13
  match (field w 10 3).toNat with
  | 4 => .ok (.ldx rd rp (field w 8 2) (field w 4 4))
  | 5 => .ok (.stx rd rp (field w 8 2) (field w 4 4))
  | 6 => .ok (.ld rd rp (field w 4 6))
  | 7 => .ok (.st rd rp (field w 4 6))
  | _ => decodeMiscOp w

/-- The ALU/Misc class (R95). -/
def decodeAluMisc (w : InstrWord) : Except DecodeReject Instr :=
  match (field w 17 3).toNat with
  | 0 => decodeMisc w
  | 1 => decodeAluLong .add .addi w
  | 2 => decodeAluLong .sub .subi w
  | 3 => decodeAluShort w
  | 4 => decodeAluLong .asr .asri w
  | 5 => decodeAluLong .lsr .lsri w
  | 6 => decodeAluLong .lsl .lsli w
  | _ => decodeAluLong .mul .muli w

/-- `Decode(w)` of R92: a total function of the word alone. The two exact words are matched first, and `jmp` before
`mov` (R101). -/
def decode (w : InstrWord) : Except DecodeReject Instr :=
  if w = 0x000000#22 then .ok .nop
  else if w = 0x100400#22 then .ok .hlt
  else match (field w 20 2).toNat with
    | 0 => if regField w 0 = 7 then .ok (.jmp (field w 4 16)) else .ok (.mov (regField w 0) (field w 4 16))
    | 1 => decodeAluMisc w
    | 2 => decodeBranch w
    | _ => if regField w 0 = 7 then .ok (.call (field w 4 16)) else .error .callDst

/-- Immediate/jump and call format (R83, R84): each field is a number times the place of its lowest bit. -/
def encodeImm (primary : Nat) (k16 : BitVec 16) (rd : RegIdx) : InstrWord :=
  BitVec.ofNat 22 (primary * 2 ^ 20 + k16.toNat * 2 ^ 4 + rd.val)

/-- Branch format (R85), pad bit 12 zero. -/
def encodeBranch (cond : Nat) (r1 r2 : RegIdx) (off8 : BitVec 8) : InstrWord :=
  BitVec.ofNat 22 (2 * 2 ^ 20 + cond * 2 ^ 17 + r2.val * 2 ^ 13 + off8.toNat * 2 ^ 4 + r1.val)

/-- ALU-long format, register form (R86), bits 12 and 11:8 zero. -/
def encodeAluReg (op : Nat) (rd ra rb : RegIdx) : InstrWord :=
  BitVec.ofNat 22 (1 * 2 ^ 20 + op * 2 ^ 17 + ra.val * 2 ^ 13 + rb.val * 2 ^ 4 + rd.val)

/-- ALU-long format, immediate form (R86), bit 12 one. -/
def encodeAluImm (op : Nat) (rd ra : RegIdx) (k8 : BitVec 8) : InstrWord :=
  BitVec.ofNat 22 (1 * 2 ^ 20 + op * 2 ^ 17 + ra.val * 2 ^ 13 + 1 * 2 ^ 12 + k8.toNat * 2 ^ 4 + rd.val)

/-- ALU-short format (R87), bit 12 zero. -/
def encodeAluShort (nO x : Nat) (rd ra rb : RegIdx) (nA nB : Bool) : InstrWord :=
  BitVec.ofNat 22 (1 * 2 ^ 20 + 3 * 2 ^ 17 + ra.val * 2 ^ 13 + nO * 2 ^ 11 + nB.toNat * 2 ^ 10 + nA.toNat * 2 ^ 9
    + x * 2 ^ 8 + rb.val * 2 ^ 4 + rd.val)

/-- Misc format (R90), secondary 0. -/
def encodeMisc (subop5 : Nat) (rd ra rb : RegIdx) : InstrWord :=
  BitVec.ofNat 22 (1 * 2 ^ 20 + ra.val * 2 ^ 13 + subop5 * 2 ^ 8 + rb.val * 2 ^ 4 + rd.val)

/-- Scaled-index format (R88), secondary 0. -/
def encodeScaled (subop3 : Nat) (rd rp : RegIdx) (sc : BitVec 2) (off4 : BitVec 4) : InstrWord :=
  BitVec.ofNat 22 (1 * 2 ^ 20 + rp.val * 2 ^ 13 + subop3 * 2 ^ 10 + sc.toNat * 2 ^ 8 + off4.toNat * 2 ^ 4 + rd.val)

/-- Immediate-offset format (R89), secondary 0. -/
def encodeOffset (subop3 : Nat) (rd rp : RegIdx) (off6 : BitVec 6) : InstrWord :=
  BitVec.ofNat 22 (1 * 2 ^ 20 + rp.val * 2 ^ 13 + subop3 * 2 ^ 10 + off6.toNat * 2 ^ 4 + rd.val)

/-- The word of an instruction, written from the formats R83 to R90 and the code tables R95 to R97. -/
def encode : Instr → InstrWord
  | .nop => 0x000000#22
  | .jmp k16 => encodeImm 0 k16 7
  | .mov rd k16 => encodeImm 0 k16 rd
  | .call k16 => encodeImm 3 k16 7
  | .jge r1 r2 off8 => encodeBranch 0 r1 r2 off8
  | .jl r1 r2 off8 => encodeBranch 1 r1 r2 off8
  | .je r1 r2 off8 => encodeBranch 2 r1 r2 off8
  | .jne r1 r2 off8 => encodeBranch 3 r1 r2 off8
  | .jae r1 r2 off8 => encodeBranch 4 r1 r2 off8
  | .jb r1 r2 off8 => encodeBranch 5 r1 r2 off8
  | .ijne r1 r2 off8 => encodeBranch 6 r1 r2 off8
  | .djge r1 r2 off8 => encodeBranch 7 r1 r2 off8
  | .add rd ra rb => encodeAluReg 1 rd ra rb
  | .addi rd ra k8 => encodeAluImm 1 rd ra k8
  | .sub rd ra rb => encodeAluReg 2 rd ra rb
  | .subi rd ra k8 => encodeAluImm 2 rd ra k8
  | .asr rd ra rb => encodeAluReg 4 rd ra rb
  | .asri rd ra k8 => encodeAluImm 4 rd ra k8
  | .lsr rd ra rb => encodeAluReg 5 rd ra rb
  | .lsri rd ra k8 => encodeAluImm 5 rd ra k8
  | .lsl rd ra rb => encodeAluReg 6 rd ra rb
  | .lsli rd ra k8 => encodeAluImm 6 rd ra k8
  | .mul rd ra rb => encodeAluReg 7 rd ra rb
  | .muli rd ra k8 => encodeAluImm 7 rd ra k8
  | .or rd ra rb nA nB => encodeAluShort 0 0 rd ra rb nA nB
  | .xor rd ra rb nA nB => encodeAluShort 0 1 rd ra rb nA nB
  | .nor rd ra rb nA nB => encodeAluShort 1 0 rd ra rb nA nB
  | .xnor rd ra rb nA nB => encodeAluShort 1 1 rd ra rb nA nB
  | .push ra => encodeMisc 0 0 ra 0
  | .pop rd => encodeMisc 1 rd 0 0
  | .int n => encodeMisc 4 n.toFin 0 0
  | .hlt => 0x100400#22
  | .fadd rd ra rb => encodeMisc 8 rd ra rb
  | .fsub rd ra rb => encodeMisc 9 rd ra rb
  | .fmul rd ra rb => encodeMisc 10 rd ra rb
  | .fdiv rd ra rb => encodeMisc 11 rd ra rb
  | .ftoi rd ra => encodeMisc 12 rd ra 0
  | .itof rd ra => encodeMisc 13 rd ra 0
  | .utof rd ra => encodeMisc 14 rd ra 0
  | .ldx rd rp sc off4 => encodeScaled 4 rd rp sc off4
  | .stx rs rp sc off4 => encodeScaled 5 rs rp sc off4
  | .ld rd rp off6 => encodeOffset 6 rd rp off6
  | .st rs rp off6 => encodeOffset 7 rs rp off6

/-- The word that the host's number `w` of `nbits` bits stands for, if it is one: words are values below 2^22 (R275). -/
def tableWord (nbits w : Nat) : Option InstrWord :=
  let v := w % 2 ^ nbits
  if v < 2 ^ 22 then some (BitVec.ofNat 22 v) else none

/-- What the decoder reads from the host's number: an instruction is one word, so there are no bytes to lay out. -/
def decodeTableWord (nbits w : Nat) : Option Instr :=
  match tableWord nbits w with
  | none => none
  | some word => (decode word).toOption

end Sys2Proof
end

