-- ==== Sys2Proof/Config.lean ====
section
/-! DEFINITION. The parameters that are fixed for a run (spec/00_scope.md R8), and the constants without a body
from which the open parameters at reset and the free values are taken. -/

namespace Sys2Proof

/-- OVF_MODE: the definition of FL bits 1 and 3 (40_alu.md R124, OPEN by D20). -/
inductive OvfMode where
  | unsigned
  | signed
  deriving DecidableEq, Repr, Inhabited

/-- FL_DST_ORDER: the order of the two writes of add and sub with destination 8 (40_alu.md R125, OPEN by D21). -/
inductive FlDstOrder where
  | flagsLast
  | resultLast
  deriving DecidableEq, Repr, Inhabited

/-- SHIFT_WIDE: shift amounts of 16 or more (40_alu.md R138, OPEN by D22). -/
inductive ShiftWide where
  | saturate
  | mod16
  deriving DecidableEq, Repr, Inhabited

/-- The kind of an I/O port slot (20_memory.md R63, 60_exceptions.md R242). -/
inductive PortKind where
  | null
  | binaryDisplay
  | debug
  | unimplemented
  deriving DecidableEq, Repr, Inhabited

/-- The configuration parameters of R8, but for the draw `nan_bits`, which is a free value (D23). -/
structure Config where
  strictOob : Bool
  haltOnNop : Bool
  ovfMode : OvfMode
  flDstOrder : FlDstOrder
  shiftWide : ShiftWide
  portKind : Vector PortKind 32
  deriving DecidableEq, Repr

/-- R242: exactly one binary-display slot and exactly one debug slot. -/
def Config.wf (c : Config) : Bool :=
  decide ((∃ p : Fin 32, ∀ q : Fin 32, c.portKind[q] = .binaryDisplay ↔ q = p) ∧
    ∃ p : Fin 32, ∀ q : Fin 32, c.portKind[q] = .debug ↔ q = p)

/-- DESIGN CHOICE (log entry 4), safe: OVF_MODE of a construction that names none. -/
opaque Config.openOvfMode : OvfMode

/-- DESIGN CHOICE (log entry 4), safe: FL_DST_ORDER of a construction that names none. -/
opaque Config.openFlDstOrder : FlDstOrder

/-- DESIGN CHOICE (log entry 4), safe: SHIFT_WIDE of a construction that names none. -/
opaque Config.openShiftWide : ShiftWide

/-- DESIGN CHOICE (log entry 4), safe: the slot of the binary display in a construction that names no PORT_KIND. -/
opaque Config.openDisplaySlot : Fin 32

/-- DESIGN CHOICE (log entry 4), safe: how many slots past the one after the display slot, modulo 32, the debug slot
lies, so that the two differ. -/
opaque Config.openDebugGap : Fin 31

/-- DESIGN CHOICE (log entry 4), safe: which of the remaining slots are null sinks. -/
opaque Config.openNullSlot : Fin 32 → Bool

/-- A port table with exactly one display slot and one debug slot that says nothing else of the slots (R63, D26). -/
def Config.openPortKind : Vector PortKind 32 :=
  Vector.ofFn fun p =>
    if p.val = Config.openDisplaySlot.val then .binaryDisplay
    else if p.val = (Config.openDisplaySlot.val + 1 + Config.openDebugGap.val) % 32 then .debug
    else if Config.openNullSlot p then .null
    else .unimplemented

/-- The configuration of R8: the two defaults the spec states, every OPEN parameter an opaque constant. -/
def Config.default : Config where
  strictOob := false
  haltOnNop := false
  ovfMode := Config.openOvfMode
  flDstOrder := Config.openFlDstOrder
  shiftWide := Config.openShiftWide
  portKind := Config.openPortKind

/-- DESIGN CHOICE (log entry 5), safe: the sign of the n-th free value, when it is a NaN pattern (R153, D23). -/
opaque Config.freeNanSign : Nat → Bool

/-- DESIGN CHOICE (log entry 5), safe: one less than the fraction of the n-th free value, when it is a NaN pattern:
fractions 1 to 1023, so every NaN pattern and nothing else is possible (R153, D23). -/
opaque Config.freeNanFraction : Nat → Fin 1023

/-- DESIGN CHOICE (log entry 6), safe: register i after an execute-time fatal error that takes the n-th free value
(R232, D31). -/
opaque Config.freeReg : Nat → Fin 16 → Word

/-- DESIGN CHOICE (log entry 6), safe: what is stored in RAM, cell by cell, after such an error (R232, D31). -/
opaque Config.freeRam : Nat → List (Fin 256 × Word)

/-- DESIGN CHOICE (log entry 6), safe: the output log after such an error, true for a display record (R232, D31). -/
opaque Config.freeLog : Nat → List (Bool × Word)

end Sys2Proof
end

