-- ==== Sys2Proof/Machine/State.lean ====
section
/-! DEFINITION. The state of the core (spec/10_state.md), its fatal errors (60_exceptions.md R231) and its values after
construction (R39). -/

namespace Sys2Proof.Machine

/-- The direction of a data access (R231). -/
inductive Access where
  | read
  | write
  deriving DecidableEq, Repr

/-- The fatal errors of R231, with the detail each records. Fetch, decode and the meanings raise them; `step` answers
every one of them with the next state the spec gives, the Faulted one (R262), so no run of `step` ends in a fault. -/
inductive Fault where
  /-- Raised by `step` for a word that decodes to no instruction (R99). Safe: the spec's own error. -/
  | decodeError (word : InstrWord)
  /-- Raised by ldx, stx, ld, st, push, pop, call on a port or address with no handler for the access (R63 to R65).
  Safe: the spec's own error. -/
  | unimplementedPeripheral (addr : Word) (access : Access)
  /-- Raised by the same instructions at addresses from 0x0200 on under STRICT_OOB (R57). Safe: the spec's own error. -/
  | outOfBounds (addr : Word) (access : Access)
  /-- Raised by `step` where the program store holds no word (R60). Safe: the spec's own error. -/
  | fetchFault (addr : Word)
  /-- Raised by ftoi of a NaN or an infinity (R159). Safe: the spec's own error. -/
  | floatConversionFault (operand : Word)
  deriving DecidableEq, Repr

/-- What the model does not run. -/
inductive Refusal where
  /-- Raised by an arm of `exec` that has no meaning yet; no arm raises it. Safe: the machine stops. -/
  | notModelled (mnemonic : String)
  /-- Raised by `loadProgram` for a pair that is no program address and instruction word (R275). Safe: nothing is
  loaded. -/
  | programPairOutOfRange
  /-- Raised by `loadData` for a pair that is no RAM address and 16-bit value (R276). Safe: nothing is loaded. -/
  | dataPairOutOfRange
  deriving DecidableEq, Repr

/-- The fault record: the error with its detail, and the PC of the tick that raised it (R231, R262). -/
structure FaultRecord where
  cause : Fault
  pc : Word
  deriving DecidableEq, Repr

/-- The two output handlers (R63, R65). -/
inductive OutputKind where
  | binaryDisplay
  | debug
  deriving DecidableEq, Repr

/-- One record of the output log (R37). -/
structure OutputRecord where
  kind : OutputKind
  value : Word
  deriving DecidableEq, Repr

/-- Sparse cells by address, addresses strictly rising. A cell of either space is the smallest unit there is
(R51, log entry 1). -/
abbrev Cells (α : Type) := List (Nat × α)

/-- The state of the core. -/
structure State where
  /-- x[0] to x[15] (R20): 1 is PT, 7 is PC, 8 is FL, 15 is SP (R22). Slot 0 holds 0 and is never written (R21). -/
  regs : Vector Word 16
  /-- PC explicitly written this tick (R30). -/
  pcw : Bool
  /-- False once halted (R29). -/
  running : Bool
  /-- The fatal-error record, once there is one (R33). -/
  fault : Option FaultRecord
  /-- RAM by data address 0x0100 to 0x01FF (R35). -/
  ram : Cells Word
  /-- The program store by program address (R36). -/
  rom : Cells InstrWord
  /-- The output log, oldest record first (R37). -/
  log : List OutputRecord
  /-- The configuration, fixed for a run (R8, R31). Carried here because a step takes a state alone (log entry 3). -/
  cfg : Config
  /-- The model's own field: how many free values have been taken (log entry 5). -/
  draws : Nat
  deriving DecidableEq, Repr

/-- The state after construction with the default configuration, no program and no preset (R39, R260). RAM lists
nothing: an unlisted cell reads 0 (DESIGN CHOICE, log entry 2). -/
def State.reset : State where
  regs := Vector.replicate 16 0#16
  pcw := false
  running := true
  fault := none
  ram := []
  rom := []
  log := []
  cfg := Config.default
  draws := 0

end Sys2Proof.Machine
end

