-- ==== Sys2Proof/Machine/Ops.lean ====
section
/-! DEFINITION. The named operations over registers, memory, ports and the run states, and taking a fatal error. -/

namespace Sys2Proof.Machine

/-! Sparse cells -/

/-- What is listed at an address. -/
def Cells.get {α : Type} : Cells α → Nat → Option α
  | [], _ => none
  | (k, v) :: m, a => if a = k then some v else Cells.get m a

/-- List `v` at `a`, keeping the order of the addresses. -/
def Cells.put {α : Type} : Cells α → Nat → α → Cells α
  | [], a, v => [(a, v)]
  | (k, u) :: m, a, v =>
    if a < k then (a, v) :: (k, u) :: m
    else if a = k then (a, v) :: m
    else (k, u) :: Cells.put m a v

/-- List nothing at `a`. -/
def Cells.drop {α : Type} : Cells α → Nat → Cells α
  | [], _ => []
  | (k, u) :: m, a => if a = k then m else (k, u) :: Cells.drop m a

/-- The addresses are strictly rising. -/
def Cells.sorted {α : Type} : Cells α → Bool
  | [] => true
  | [_] => true
  | (k, _) :: (l, v) :: m => decide (k < l) && Cells.sorted ((l, v) :: m)

/-! RAM (R35, R55, R56) -/

/-- What a RAM cell that is not listed reads as (DESIGN CHOICE, log entry 2). -/
def Memory.unlisted : Word := 0#16

/-- The cell at data address `a`. -/
def Memory.read (m : Cells Word) (a : Nat) : Word := (m.get a).getD Memory.unlisted

/-- Store `v` at data address `a`, keeping the canonical form. -/
def Memory.write (m : Cells Word) (a : Nat) (v : Word) : Cells Word :=
  if v = Memory.unlisted then m.drop a else m.put a v

/-- The canonical form: addresses strictly rising, inside RAM, and no entry that an unlisted cell reads as. -/
def Memory.wf (m : Cells Word) : Bool :=
  m.sorted && m.all fun c => decide (0x0100 ≤ c.1 ∧ c.1 ≤ 0x01FF ∧ c.2 ≠ Memory.unlisted)

/-- The canonical form of the program store: addresses strictly rising and of 16 bits (R36). -/
def Store.wf (m : Cells InstrWord) : Bool := m.sorted && m.all fun c => decide (c.1 < 2 ^ 16)

/-! Registers (R20 to R24) -/

/-- `x[i]` (R10, R21). -/
def State.read (s : State) (i : RegIdx) : Word := if i = 0 then 0#16 else s.regs[i]

/-- `x[i] <- v`: dropped for register 0 (R21), and register 7 sets `pcw` whatever is written (R24). -/
def State.write (s : State) (i : RegIdx) (v : Word) : State :=
  if i = 0 then s else { s with regs := s.regs.set i v, pcw := s.pcw || decide (i = 7) }

/-- PC, the address of the instruction that executes (R25). -/
def State.pc (s : State) : Word := s.read 7

/-- PT (R22). -/
def State.pt (s : State) : Word := s.read 1

/-- FL (R28). -/
def State.fl (s : State) : Word := s.read 8

/-- SP (R191). -/
def State.sp (s : State) : Word := s.read 15

/-- `advance_pc()` (R26, R27); its write of PC does not set `pcw`. -/
def State.advancePc (s : State) : State :=
  if s.pcw then { s with pcw := false } else { s with regs := s.regs.set 7 (s.pc + 1#16) }

/-! The memory bus (R50 to R57) -/

/-- The kind of port `a`, an address below 0x0100. Addresses 0x0020 to 0x00FF select no port, and an access there
fails as an unimplemented one does (R63, D25). -/
def State.portKind (s : State) (a : Word) : PortKind := (s.cfg.portKind[a.toNat]?).getD .unimplemented

/-- `IORead(p)` (R64). -/
def State.ioRead (s : State) (a : Word) : Except Fault Word :=
  match s.portKind a with
  | .null => .ok 0#16
  | .binaryDisplay => .error (.unimplementedPeripheral a .read)
  | .debug => .error (.unimplementedPeripheral a .read)
  | .unimplemented => .error (.unimplementedPeripheral a .read)

/-- Append one record to the output log (R37, R66). -/
def State.output (s : State) (k : OutputKind) (v : Word) : State := { s with log := s.log ++ [⟨k, v⟩] }

/-- `IOWrite(p, v)` (R65). -/
def State.ioWrite (s : State) (a v : Word) : Except Fault State :=
  match s.portKind a with
  | .null => .ok s
  | .binaryDisplay => .ok (s.output .binaryDisplay v)
  | .debug => .ok (s.output .debug v)
  | .unimplemented => .error (.unimplementedPeripheral a .write)

/-- `MemRead(a, 1)` (R53). -/
def State.memRead (s : State) (a : Word) : Except Fault Word :=
  if a.toNat < 0x0100 then s.ioRead a
  else if a.toNat ≤ 0x01FF then .ok (Memory.read s.ram a.toNat)
  else if s.cfg.strictOob then .error (.outOfBounds a .read)
  else .ok 0#16

/-- `MemWrite(a, 1, v)` (R54). -/
def State.memWrite (s : State) (a v : Word) : Except Fault State :=
  if a.toNat < 0x0100 then s.ioWrite a v
  else if a.toNat ≤ 0x01FF then .ok { s with ram := Memory.write s.ram a.toNat v }
  else if s.cfg.strictOob then .error (.outOfBounds a .write)
  else .ok s

/-- `x[rd] <- MemRead(a, 1)`: a faulting read writes no register (R173). -/
def State.loadInto (s : State) (rd : RegIdx) (a : Word) : Host.Outcome State Fault Refusal :=
  match s.memRead a with
  | .ok v => .next (s.write rd v)
  | .error f => .fault f

/-- `MemWrite(a, 1, v)` as a whole instruction (R174). -/
def State.storeAt (s : State) (a v : Word) : Host.Outcome State Fault Refusal :=
  match s.memWrite a v with
  | .ok t => .next t
  | .error f => .fault f

/-- `MemWrite(x[15], 1, v); x[15] <- x[15] + 1` with SP read once, the start of push and call (R196, R201). -/
def State.pushWord (s : State) (v : Word) : Except Fault State :=
  match s.memWrite s.sp v with
  | .ok t => .ok (t.write 15 (s.sp + 1#16))
  | .error f => .error f

/-- `Fetch(x[7])` (R60). -/
def State.fetch (s : State) : Except Fault InstrWord :=
  match s.rom.get s.pc.toNat with
  | some w => .ok w
  | none => .error (.fetchFault s.pc)

/-! Free values -/

/-- The n-th free value as a NaN: exponent 31 and a fraction that is not 0 (R153, D23). -/
def freeNan (n : Nat) : Word :=
  BitVec.ofBool (Config.freeNanSign n) ++ 31#5 ++ BitVec.ofNat 10 ((Config.freeNanFraction n).val + 1)

/-- The registers as the n-th free value; slot 0 keeps 0 (R21). -/
def freeRegs (n : Nat) : Vector Word 16 := (Vector.ofFn (Config.freeReg n)).set 0 0#16

/-- RAM as the n-th free value, in canonical form. -/
def freeRam (n : Nat) : Cells Word :=
  (Config.freeRam n).foldl (fun m c => Memory.write m (0x0100 + c.1.val) c.2) []

/-- The output log as the n-th free value. -/
def freeLog (n : Nat) : List OutputRecord :=
  (Config.freeLog n).map fun r => ⟨if r.1 then .binaryDisplay else .debug, r.2⟩

/-! Fatal errors (R230 to R234) and the end of a tick (R262) -/

/-- The numeric code of an error (R231). -/
def Fault.code : Fault → Nat
  | .decodeError _ => 1
  | .unimplementedPeripheral _ _ => 2
  | .outOfBounds _ _ => 3
  | .fetchFault _ => 4
  | .floatConversionFault _ => 5

/-- True for the errors raised before execute, which leave the state exactly as before the tick (R232). -/
def Fault.beforeExecute : Fault → Bool
  | .decodeError _ => true
  | .fetchFault _ => true
  | .unimplementedPeripheral _ _ => false
  | .outOfBounds _ _ => false
  | .floatConversionFault _ => false

/-- The registers, RAM and output log as free values: what the spec leaves unspecified beside an execute-time error
(R232, D31, log entry 6). That `running` and `pcw` stay is the model's choice (DEDUCED, log entry 6). -/
def State.unspecified (s : State) : State :=
  { s with regs := freeRegs s.draws, ram := freeRam s.draws, log := freeLog s.draws, draws := s.draws + 1 }

/-- A fatal error raised in the tick that starts in `s`: the record with the tick's PC, and the Faulted state
(R231, R262). -/
def State.raise (s : State) (f : Fault) : State :=
  if f.beforeExecute then { s with fault := some ⟨f, s.pc⟩ }
  else { s.unspecified with fault := some ⟨f, s.pc⟩ }

/-- `running <- false` (R29, R217). -/
def State.halt (s : State) : State := { s with running := false }

/-- The end of a tick whose instruction completed: the halting tick does not advance PC (R218, R219, R262). -/
def State.finishTick (s : State) : State := if s.running then s.advancePc else s

end Sys2Proof.Machine
end

