-- ==== Sys2Proof/Machine/Flags.lean ====
section
/-! DEFINITION. The flags of add and sub (40_alu.md R123 to R125). No other instruction writes FL as a side effect
(R28, R144). -/

namespace Sys2Proof.Machine

/-- The signed result lies outside -32768 to 32767 (R124). -/
def signedOverflow (r : Int) : Bool := decide (r < -32768 ∨ 32767 < r)

/-- OVF of an addition (R124, D20). -/
def ovfAdd (m : OvfMode) (a b : Word) : Bool :=
  match m with
  | .unsigned => decide (2 ^ 16 ≤ a.toNat + b.toNat)
  | .signed => signedOverflow (a.toInt + b.toInt)

/-- OVF of a subtraction (R124, D20). -/
def ovfSub (m : OvfMode) (a b : Word) : Bool :=
  match m with
  | .unsigned => decide (a.toNat < b.toNat)
  | .signed => signedOverflow (a.toInt - b.toInt)

/-- `zext_16( OVF<<3 | S<<2 | OVF<<1 | Z )` of a result (R123, D18, D19). -/
def flagsWord (ovf : Bool) (r : Word) : Word :=
  0#12 ++ BitVec.ofBool ovf ++ BitVec.ofBool r.msb ++ BitVec.ofBool ovf ++ BitVec.ofBool (r == 0#16)

/-- `WriteAddSub(rd, R, F)` (R125, D21). -/
def State.writeAddSub (s : State) (rd : RegIdx) (r f : Word) : State :=
  match s.cfg.flDstOrder with
  | .flagsLast => (s.write rd r).write 8 f
  | .resultLast => (s.write 8 f).write rd r

end Sys2Proof.Machine
end

