-- ==== Sys2Proof/Machine/Operands.lean ====
section
/-! DEFINITION. Operand forms: immediates (30_encoding.md R100), the second ALU operand (40_alu.md R120), effective
addresses (42_memory_access.md R171, R172, R175) and branch targets (43_control_flow.md R205). -/

namespace Sys2Proof.Machine

/-- `sext_16` of an 8-bit field (R10, R100). -/
def sext16 (k8 : BitVec 8) : Word := k8.signExtend 16

/-- `EAScaled(rp, sc, off4)`: x[rp] + 2^sc * PT + off4 modulo 2^16 (R172, D9, D10, D11). -/
def State.eaScaled (s : State) (rp : RegIdx) (sc : BitVec 2) (off4 : BitVec 4) : Word :=
  s.read rp + BitVec.ofNat 16 (2 ^ sc.toNat) * s.pt + off4.zeroExtend 16

/-- `EAImm(rp, off6)`: x[rp] + off6 modulo 2^16 (R175, D10, D11). -/
def State.eaImm (s : State) (rp : RegIdx) (off6 : BitVec 6) : Word := s.read rp + off6.zeroExtend 16

/-- The target of a branch: the branch's own address plus the sign-extended offset, modulo 2^16 (R205). -/
def State.branchTarget (s : State) (off8 : BitVec 8) : Word := s.pc + sext16 off8

end Sys2Proof.Machine
end

