-- ==== Sys2Proof/Machine/Alu.lean ====
section
/-! DEFINITION. ALU-long: add, sub, the shifts and multiply, register and immediate forms (40_alu.md R120 to R138). -/

namespace Sys2Proof.Machine

/-! The operations on two 16-bit operands -/

/-- add (R126, R127): the wrapped sum and its flags. -/
def State.addInto (s : State) (rd : RegIdx) (a b : Word) : State :=
  s.writeAddSub rd (a + b) (flagsWord (ovfAdd s.cfg.ovfMode a b) (a + b))

/-- sub (R128, R129): the wrapped difference and its flags. -/
def State.subInto (s : State) (rd : RegIdx) (a b : Word) : State :=
  s.writeAddSub rd (a - b) (flagsWord (ovfSub s.cfg.ovfMode a b) (a - b))

/-- asr by fewer than 16 places: the floor of s(A) / 2^amt (R130). -/
def asrBy (a : Word) (amt : Nat) : Word := BitVec.ofInt 16 (a.toInt / 2 ^ amt)

/-- lsr by fewer than 16 places (R132). -/
def lsrBy (a : Word) (amt : Nat) : Word := BitVec.ofNat 16 (a.toNat / 2 ^ amt)

/-- lsl by fewer than 16 places (R134). -/
def lslBy (a : Word) (amt : Nat) : Word := BitVec.ofNat 16 (a.toNat * 2 ^ amt)

/-- The amount u(B): exact below 16; from 16 on per SHIFT_WIDE, either `wide` or the amount modulo 16 (R138, D22). -/
def shiftBy (m : ShiftWide) (f : Word → Nat → Word) (wide a b : Word) : Word :=
  if b.toNat < 16 then f a b.toNat
  else match m with
    | .saturate => wide
    | .mod16 => f a (b.toNat % 16)

/-- asr (R130, R138): sixteen copies of the sign bit under `saturate`. -/
def asrResult (m : ShiftWide) (a b : Word) : Word := shiftBy m asrBy (if a.msb then 0xFFFF#16 else 0#16) a b

/-- lsr (R132, R138). -/
def lsrResult (m : ShiftWide) (a b : Word) : Word := shiftBy m lsrBy 0#16 a b

/-- lsl (R134, R138). -/
def lslResult (m : ShiftWide) (a b : Word) : Word := shiftBy m lslBy 0#16 a b

/-! The meanings -/

/-- R126. -/
def execAdd (rd ra rb : RegIdx) (s : State) : Host.Outcome State Fault Refusal :=
  .next (s.addInto rd (s.read ra) (s.read rb))

/-- R127. -/
def execAddi (rd ra : RegIdx) (k8 : BitVec 8) (s : State) : Host.Outcome State Fault Refusal :=
  .next (s.addInto rd (s.read ra) (sext16 k8))

/-- R128. -/
def execSub (rd ra rb : RegIdx) (s : State) : Host.Outcome State Fault Refusal :=
  .next (s.subInto rd (s.read ra) (s.read rb))

/-- R129. -/
def execSubi (rd ra : RegIdx) (k8 : BitVec 8) (s : State) : Host.Outcome State Fault Refusal :=
  .next (s.subInto rd (s.read ra) (sext16 k8))

/-- R130. -/
def execAsr (rd ra rb : RegIdx) (s : State) : Host.Outcome State Fault Refusal :=
  .next (s.write rd (asrResult s.cfg.shiftWide (s.read ra) (s.read rb)))

/-- R131. -/
def execAsri (rd ra : RegIdx) (k8 : BitVec 8) (s : State) : Host.Outcome State Fault Refusal :=
  .next (s.write rd (asrResult s.cfg.shiftWide (s.read ra) (sext16 k8)))

/-- R132. -/
def execLsr (rd ra rb : RegIdx) (s : State) : Host.Outcome State Fault Refusal :=
  .next (s.write rd (lsrResult s.cfg.shiftWide (s.read ra) (s.read rb)))

/-- R133. -/
def execLsri (rd ra : RegIdx) (k8 : BitVec 8) (s : State) : Host.Outcome State Fault Refusal :=
  .next (s.write rd (lsrResult s.cfg.shiftWide (s.read ra) (sext16 k8)))

/-- R134. -/
def execLsl (rd ra rb : RegIdx) (s : State) : Host.Outcome State Fault Refusal :=
  .next (s.write rd (lslResult s.cfg.shiftWide (s.read ra) (s.read rb)))

/-- R135. -/
def execLsli (rd ra : RegIdx) (k8 : BitVec 8) (s : State) : Host.Outcome State Fault Refusal :=
  .next (s.write rd (lslResult s.cfg.shiftWide (s.read ra) (sext16 k8)))

/-- R136: the low 16 bits of the product. -/
def execMul (rd ra rb : RegIdx) (s : State) : Host.Outcome State Fault Refusal :=
  .next (s.write rd (s.read ra * s.read rb))

/-- R137. -/
def execMuli (rd ra : RegIdx) (k8 : BitVec 8) (s : State) : Host.Outcome State Fault Refusal :=
  .next (s.write rd (s.read ra * sext16 k8))

end Sys2Proof.Machine
end

