-- ==== Sys2Proof/Machine/Bitwise.lean ====
section
/-! DEFINITION. ALU-short: or, xor, nor, xnor with the negation of each operand (40_alu.md R139 to R143). -/

namespace Sys2Proof.Machine

/-- The value, complemented where the flag is set (R139). -/
def negIf (c : Bool) (v : Word) : Word := if c then ~~~v else v

/-- A' | B' (R139). -/
def orOf (nA nB : Bool) (a b : Word) : Word := negIf nA a ||| negIf nB b

/-- A' ^ B' (R139). -/
def xorOf (nA nB : Bool) (a b : Word) : Word := negIf nA a ^^^ negIf nB b

/-- R140. -/
def execOr (rd ra rb : RegIdx) (nA nB : Bool) (s : State) : Host.Outcome State Fault Refusal :=
  .next (s.write rd (orOf nA nB (s.read ra) (s.read rb)))

/-- R141. -/
def execXor (rd ra rb : RegIdx) (nA nB : Bool) (s : State) : Host.Outcome State Fault Refusal :=
  .next (s.write rd (xorOf nA nB (s.read ra) (s.read rb)))

/-- R142. -/
def execNor (rd ra rb : RegIdx) (nA nB : Bool) (s : State) : Host.Outcome State Fault Refusal :=
  .next (s.write rd (~~~(orOf nA nB (s.read ra) (s.read rb))))

/-- R143. -/
def execXnor (rd ra rb : RegIdx) (nA nB : Bool) (s : State) : Host.Outcome State Fault Refusal :=
  .next (s.write rd (~~~(xorOf nA nB (s.read ra) (s.read rb))))

end Sys2Proof.Machine
end

