-- ==== Sys2Proof/Machine/Control.lean ====
section
/-! DEFINITION. Stack, jump, call and branches (43_control_flow.md R190 to R214). -/

namespace Sys2Proof.Machine

/-- R196: the value is read before SP changes. -/
def execPush (ra : RegIdx) (s : State) : Host.Outcome State Fault Refusal :=
  match s.pushWord (s.read ra) with
  | .ok t => .next t
  | .error f => .fault f

/-- R198: SP is decremented, then the cell it points at is read, then the destination is written. -/
def execPop (rd : RegIdx) (s : State) : Host.Outcome State Fault Refusal :=
  let t := s.write 15 (s.sp - 1#16)
  t.loadInto rd t.sp

/-- R200. -/
def execJmp (k16 : BitVec 16) (s : State) : Host.Outcome State Fault Refusal := .next (s.write 7 k16)

/-- R201: the return address is the word after the call. -/
def execCall (k16 : BitVec 16) (s : State) : Host.Outcome State Fault Refusal :=
  match s.pushWord (s.pc + 1#16) with
  | .ok t => .next (t.write 7 k16)
  | .error f => .fault f

/-- `Branch` of R205 after the PT update, if any: PC is written if the condition holds of x[r1] and x[r2]. -/
def State.branchIf (s : State) (cond : Word → Word → Bool) (r1 r2 : RegIdx) (off8 : BitVec 8) : State :=
  if cond (s.read r1) (s.read r2) then s.write 7 (s.branchTarget off8) else s

/-- Signed ≥ (R206). -/
def signedGe (a b : Word) : Bool := decide (b.toInt ≤ a.toInt)

/-- Unsigned ≥ (R210). -/
def unsignedGe (a b : Word) : Bool := decide (b.toNat ≤ a.toNat)

/-- R206. -/
def execJge (r1 r2 : RegIdx) (off8 : BitVec 8) (s : State) : Host.Outcome State Fault Refusal :=
  .next (s.branchIf signedGe r1 r2 off8)

/-- R207. -/
def execJl (r1 r2 : RegIdx) (off8 : BitVec 8) (s : State) : Host.Outcome State Fault Refusal :=
  .next (s.branchIf (fun a b => !signedGe a b) r1 r2 off8)

/-- R208. -/
def execJe (r1 r2 : RegIdx) (off8 : BitVec 8) (s : State) : Host.Outcome State Fault Refusal :=
  .next (s.branchIf (fun a b => a == b) r1 r2 off8)

/-- R209. -/
def execJne (r1 r2 : RegIdx) (off8 : BitVec 8) (s : State) : Host.Outcome State Fault Refusal :=
  .next (s.branchIf (fun a b => a != b) r1 r2 off8)

/-- R210. -/
def execJae (r1 r2 : RegIdx) (off8 : BitVec 8) (s : State) : Host.Outcome State Fault Refusal :=
  .next (s.branchIf unsignedGe r1 r2 off8)

/-- R211. -/
def execJb (r1 r2 : RegIdx) (off8 : BitVec 8) (s : State) : Host.Outcome State Fault Refusal :=
  .next (s.branchIf (fun a b => !unsignedGe a b) r1 r2 off8)

/-- R213: PT is incremented before the comparison, taken or not (R212). -/
def execIjne (r1 r2 : RegIdx) (off8 : BitVec 8) (s : State) : Host.Outcome State Fault Refusal :=
  .next ((s.write 1 (s.pt + 1#16)).branchIf (fun a b => a != b) r1 r2 off8)

/-- R214: PT is decremented before the comparison, taken or not (R212). -/
def execDjge (r1 r2 : RegIdx) (off8 : BitVec 8) (s : State) : Host.Outcome State Fault Refusal :=
  .next ((s.write 1 (s.pt - 1#16)).branchIf signedGe r1 r2 off8)

end Sys2Proof.Machine
end

