-- ==== Sys2Proof/Machine/Half.lean ====
section
/-! DEFINITION. The binary16 number a register value denotes and the rounding of exact results (41_fpu.md R150 to
R153, from general knowledge by the spec's own mark, log entry 9). Magnitudes are counted in units of 2^-24, the
smallest subnormal, so every finite number is a whole count and every exact result a ratio of two counts. -/

namespace Sys2Proof.Machine

/-- `h(v)` (R150): a NaN, an infinity or a finite number, with its sign and its magnitude in units of 2^-24. -/
inductive Half where
  | nan
  | inf (neg : Bool)
  | finite (neg : Bool) (units : Nat)
  deriving DecidableEq, Repr

/-- The magnitude of exponent and fraction bits `b` in units of 2^-24: the value table of R150, whose exponent 0 rows
are the count itself. The rows of exponent 31 continue the scale past the largest finite number. -/
def magUnits (b : Nat) : Nat :=
  if b / 1024 = 0 then b else (1024 + b % 1024) * 2 ^ (b / 1024 - 1)

/-- The reading of a 16-bit value as binary16 (R150). -/
def halfOf (v : Word) : Half :=
  let neg := v.msb
  let e := (v.extractLsb' 10 5).toNat
  let f := (v.extractLsb' 0 10).toNat
  if e = 31 then (if f = 0 then .inf neg else .nan)
  else .finite neg (magUnits (e * 1024 + f))

/-- The largest `b' < b + 2^i` with magnitude at most `n / d`, found bit by bit from `b`. -/
def floorMag (n d : Nat) : Nat → Nat → Nat
  | 0, b => b
  | i + 1, b => floorMag n d i (if magUnits (b + 2 ^ i) * d ≤ n then b + 2 ^ i else b)

/-- The exponent and fraction bits of `n / d` units rounded to nearest, ties to even, and to infinity from 65520 on
(R151). -/
def roundMag (n d : Nat) : Nat :=
  let b := floorMag n d 15 0
  if 0x7C00 ≤ b then 0x7C00
  else
    let mid := (magUnits b + magUnits (b + 1)) * d
    if 2 * n < mid then b
    else if mid < 2 * n then b + 1
    else if b % 2 = 0 then b else b + 1

/-- The 16-bit pattern of a sign and 15 magnitude bits (R150). -/
def signed16 (neg : Bool) (b : Nat) : Word := BitVec.ofBool neg ++ BitVec.ofNat 15 b

/-- The pattern of an infinity (R150). -/
def infBits (neg : Bool) : Word := signed16 neg 0x7C00

/-- `bits16(round_RNE(x))` for the exact number of sign `neg` and magnitude `n / d` units: rounded once, a magnitude
that rounds to 0 keeps the sign (R151, R152). -/
def roundHalf (neg : Bool) (n d : Nat) : Word := signed16 neg (roundMag n d)

/-- The signed count of a finite number. -/
def signedUnits (neg : Bool) (units : Nat) : Int := if neg then -(units : Int) else units

/-- The sum of two finite numbers: exact, rounded once; an exact zero is +0 but for (-0) + (-0) (R151, R153). -/
def addFinite (na : Bool) (ua : Nat) (nb : Bool) (ub : Nat) : Word :=
  let r := signedUnits na ua + signedUnits nb ub
  if r = 0 then signed16 (na && nb && ua == 0 && ub == 0) 0
  else roundHalf (decide (r < 0)) r.natAbs 1

/-- `h(A) + h(B)`; none for a NaN result (R151, R153). -/
def addHalf : Half → Half → Option Word
  | .nan, _ => none
  | .inf _, .nan => none
  | .finite _ _, .nan => none
  | .inf na, .inf nb => if na = nb then some (infBits na) else none
  | .inf na, .finite _ _ => some (infBits na)
  | .finite _ _, .inf nb => some (infBits nb)
  | .finite na ua, .finite nb ub => some (addFinite na ua nb ub)

/-- The number with its sign turned. -/
def negHalf : Half → Half
  | .nan => .nan
  | .inf n => .inf (!n)
  | .finite n u => .finite (!n) u

/-- `h(A) - h(B)`, the sum with the second number's sign turned (R153). -/
def subHalf (a b : Half) : Option Word := addHalf a (negHalf b)

/-- `h(A) * h(B)`; none for a NaN result (R151, R153). -/
def mulHalf : Half → Half → Option Word
  | .nan, _ => none
  | .inf _, .nan => none
  | .finite _ _, .nan => none
  | .inf na, .inf nb => some (infBits (na ^^ nb))
  | .inf na, .finite nb ub => if ub = 0 then none else some (infBits (na ^^ nb))
  | .finite na ua, .inf nb => if ua = 0 then none else some (infBits (na ^^ nb))
  | .finite na ua, .finite nb ub => some (roundHalf (na ^^ nb) (ua * ub) (2 ^ 24))

/-- `h(A) / h(B)`; none for a NaN result; a nonzero number over zero is an infinity (R151, R153, R157). -/
def divHalf : Half → Half → Option Word
  | .nan, _ => none
  | .inf _, .nan => none
  | .finite _ _, .nan => none
  | .inf _, .inf _ => none
  | .inf na, .finite nb _ => some (infBits (na ^^ nb))
  | .finite na _, .inf nb => some (signed16 (na ^^ nb) 0)
  | .finite na ua, .finite nb ub =>
    if ub = 0 then (if ua = 0 then none else some (infBits (na ^^ nb)))
    else some (roundHalf (na ^^ nb) (ua * 2 ^ 24) ub)

/-- `bits16(round_RNE(i))` of an integer; 0 gives +0 (R160, R161). -/
def intToHalf (i : Int) : Word := roundHalf (decide (i < 0)) (i.natAbs * 2 ^ 24) 1

/-- `trunc(h(A)) mod 2^16`, toward zero; none for a NaN or an infinity (R159, D24). -/
def halfToInt : Half → Option Word
  | .nan => none
  | .inf _ => none
  | .finite n u => some (BitVec.ofInt 16 (signedUnits n (u / 2 ^ 24)))

/-- `x[rd] <- R` of an FPU operation, where a NaN result is the next free value (R153, D23). -/
def State.writeHalf (s : State) (rd : RegIdx) : Option Word → State
  | some r => s.write rd r
  | none => { s with draws := s.draws + 1 }.write rd (freeNan s.draws)

end Sys2Proof.Machine
end

