-- ==== Sys2Proof/Machine/Float.lean ====
section
/-! DEFINITION. The half-precision instructions (41_fpu.md R154 to R161). None writes FL as a side effect. -/

namespace Sys2Proof.Machine

/-- R154. -/
def execFadd (rd ra rb : RegIdx) (s : State) : Host.Outcome State Fault Refusal :=
  .next (s.writeHalf rd (addHalf (halfOf (s.read ra)) (halfOf (s.read rb))))

/-- R155. -/
def execFsub (rd ra rb : RegIdx) (s : State) : Host.Outcome State Fault Refusal :=
  .next (s.writeHalf rd (subHalf (halfOf (s.read ra)) (halfOf (s.read rb))))

/-- R156. -/
def execFmul (rd ra rb : RegIdx) (s : State) : Host.Outcome State Fault Refusal :=
  .next (s.writeHalf rd (mulHalf (halfOf (s.read ra)) (halfOf (s.read rb))))

/-- R157. -/
def execFdiv (rd ra rb : RegIdx) (s : State) : Host.Outcome State Fault Refusal :=
  .next (s.writeHalf rd (divHalf (halfOf (s.read ra)) (halfOf (s.read rb))))

/-- R159: FloatConversionFault for a NaN or an infinity. -/
def execFtoi (rd ra : RegIdx) (s : State) : Host.Outcome State Fault Refusal :=
  match halfToInt (halfOf (s.read ra)) with
  | some r => .next (s.write rd r)
  | none => .fault (.floatConversionFault (s.read ra))

/-- R160. -/
def execItof (rd ra : RegIdx) (s : State) : Host.Outcome State Fault Refusal :=
  .next (s.write rd (intToHalf (s.read ra).toInt))

/-- R161. -/
def execUtof (rd ra : RegIdx) (s : State) : Host.Outcome State Fault Refusal :=
  .next (s.write rd (intToHalf ((s.read ra).toNat : Int)))

end Sys2Proof.Machine
end

