-- ==== Sys2Proof/Machine/LoadStore.lean ====
section
/-! DEFINITION. Immediate loads, loads and stores (42_memory_access.md R170 to R179). -/

namespace Sys2Proof.Machine

/-- R170. -/
def execMov (rd : RegIdx) (k16 : BitVec 16) (s : State) : Host.Outcome State Fault Refusal :=
  .next (s.write rd k16)

/-- R173. -/
def execLdx (rd rp : RegIdx) (sc : BitVec 2) (off4 : BitVec 4) (s : State) : Host.Outcome State Fault Refusal :=
  s.loadInto rd (s.eaScaled rp sc off4)

/-- R174. -/
def execStx (rs rp : RegIdx) (sc : BitVec 2) (off4 : BitVec 4) (s : State) : Host.Outcome State Fault Refusal :=
  s.storeAt (s.eaScaled rp sc off4) (s.read rs)

/-- R176. -/
def execLd (rd rp : RegIdx) (off6 : BitVec 6) (s : State) : Host.Outcome State Fault Refusal :=
  s.loadInto rd (s.eaImm rp off6)

/-- R177. -/
def execSt (rs rp : RegIdx) (off6 : BitVec 6) (s : State) : Host.Outcome State Fault Refusal :=
  s.storeAt (s.eaImm rp off6) (s.read rs)

end Sys2Proof.Machine
end

