-- ==== Sys2Proof/Machine/System.lean ====
section
/-! DEFINITION. nop, int and hlt (43_control_flow.md R216 to R219). -/

namespace Sys2Proof.Machine

/-- R219: nothing, or the halt of R217 under HALT_ON_NOP (D35). -/
def execNop (s : State) : Host.Outcome State Fault Refusal := .next (if s.cfg.haltOnNop then s.halt else s)

/-- R216: interrupt 0 halts, 1 to 15 are no-ops. -/
def execInt (n : BitVec 4) (s : State) : Host.Outcome State Fault Refusal := .next (if n = 0#4 then s.halt else s)

/-- R217: the fixed pattern of interrupt 0. -/
def execHlt (s : State) : Host.Outcome State Fault Refusal := .next s.halt

end Sys2Proof.Machine
end

