-- ==== Sys2Proof/Machine/Dispatch.lean ====
section
/-! DEFINITION. Execute(I) of 70_reset_and_hazards.md R262: one arm per instruction, each one call of its meaning. -/

namespace Sys2Proof.Machine

def exec (i : Instr) (s : State) : Host.Outcome State Fault Refusal :=
  match i with
  | .nop => Sys2Proof.Machine.execNop s
  | .jmp k16 => Sys2Proof.Machine.execJmp k16 s
  | .mov rd k16 => Sys2Proof.Machine.execMov rd k16 s
  | .call k16 => Sys2Proof.Machine.execCall k16 s
  | .jge r1 r2 off8 => Sys2Proof.Machine.execJge r1 r2 off8 s
  | .jl r1 r2 off8 => Sys2Proof.Machine.execJl r1 r2 off8 s
  | .je r1 r2 off8 => Sys2Proof.Machine.execJe r1 r2 off8 s
  | .jne r1 r2 off8 => Sys2Proof.Machine.execJne r1 r2 off8 s
  | .jae r1 r2 off8 => Sys2Proof.Machine.execJae r1 r2 off8 s
  | .jb r1 r2 off8 => Sys2Proof.Machine.execJb r1 r2 off8 s
  | .ijne r1 r2 off8 => Sys2Proof.Machine.execIjne r1 r2 off8 s
  | .djge r1 r2 off8 => Sys2Proof.Machine.execDjge r1 r2 off8 s
  | .add rd ra rb => Sys2Proof.Machine.execAdd rd ra rb s
  | .addi rd ra k8 => Sys2Proof.Machine.execAddi rd ra k8 s
  | .sub rd ra rb => Sys2Proof.Machine.execSub rd ra rb s
  | .subi rd ra k8 => Sys2Proof.Machine.execSubi rd ra k8 s
  | .asr rd ra rb => Sys2Proof.Machine.execAsr rd ra rb s
  | .asri rd ra k8 => Sys2Proof.Machine.execAsri rd ra k8 s
  | .lsr rd ra rb => Sys2Proof.Machine.execLsr rd ra rb s
  | .lsri rd ra k8 => Sys2Proof.Machine.execLsri rd ra k8 s
  | .lsl rd ra rb => Sys2Proof.Machine.execLsl rd ra rb s
  | .lsli rd ra k8 => Sys2Proof.Machine.execLsli rd ra k8 s
  | .mul rd ra rb => Sys2Proof.Machine.execMul rd ra rb s
  | .muli rd ra k8 => Sys2Proof.Machine.execMuli rd ra k8 s
  | .or rd ra rb nA nB => Sys2Proof.Machine.execOr rd ra rb nA nB s
  | .xor rd ra rb nA nB => Sys2Proof.Machine.execXor rd ra rb nA nB s
  | .nor rd ra rb nA nB => Sys2Proof.Machine.execNor rd ra rb nA nB s
  | .xnor rd ra rb nA nB => Sys2Proof.Machine.execXnor rd ra rb nA nB s
  | .push ra => Sys2Proof.Machine.execPush ra s
  | .pop rd => Sys2Proof.Machine.execPop rd s
  | .int n => Sys2Proof.Machine.execInt n s
  | .hlt => Sys2Proof.Machine.execHlt s
  | .fadd rd ra rb => Sys2Proof.Machine.execFadd rd ra rb s
  | .fsub rd ra rb => Sys2Proof.Machine.execFsub rd ra rb s
  | .fmul rd ra rb => Sys2Proof.Machine.execFmul rd ra rb s
  | .fdiv rd ra rb => Sys2Proof.Machine.execFdiv rd ra rb s
  | .ftoi rd ra => Sys2Proof.Machine.execFtoi rd ra s
  | .itof rd ra => Sys2Proof.Machine.execItof rd ra s
  | .utof rd ra => Sys2Proof.Machine.execUtof rd ra s
  | .ldx rd rp sc off4 => Sys2Proof.Machine.execLdx rd rp sc off4 s
  | .stx rs rp sc off4 => Sys2Proof.Machine.execStx rs rp sc off4 s
  | .ld rd rp off6 => Sys2Proof.Machine.execLd rd rp off6 s
  | .st rs rp off6 => Sys2Proof.Machine.execSt rs rp off6 s

end Sys2Proof.Machine
end

