-- ==== Sys2Proof/Machine/Step.lean ====
section
/-! DEFINITION. One tick (70_reset_and_hazards.md R262). -/

namespace Sys2Proof.Machine

/-- `Tick()`: nothing when Halted or Faulted (R264); else fetch, decode, execute and advance PC, where the halt of
`nop` under HALT_ON_NOP is in that instruction's meaning. An error raised anywhere is taken as R231 and R262 say. -/
def step (s : State) : Host.Outcome State Fault Refusal :=
  if s.fault.isSome || !s.running then .next s
  else match s.fetch with
    | .error f => .next (s.raise f)
    | .ok w => match decode w with
      | .error _ => .next (s.raise (.decodeError w))
      | .ok i => match exec i s with
        | .next t => .next t.finishTick
        | .fault f => .next (s.raise f)
        | .refused r => .refused r

/-- The host's number loaded as one word at PC (R275), the core Running: all that a tick needs to fetch and run it
(log entry 15). A number that is no word is not loaded. -/
def State.withFetchWord (s : State) (nbits w : Nat) : State :=
  match tableWord nbits w with
  | none => s
  | some word => { s with rom := s.rom.put s.pc.toNat word, running := true, fault := none }

end Sys2Proof.Machine
end

