-- ==== Sys2Proof/Machine/HostCalls.lean ====
section
/-! DEFINITION. What the host does between ticks: the loaders, construction, is_running and observation
(70_reset_and_hazards.md R260, R265 to R269, R275, R276). -/

namespace Sys2Proof.Machine

/-- A pair `load_program` takes: a 16-bit program address and a value below 2^22 (R275). -/
def programPairOk (p : Nat × Nat) : Bool := decide (p.1 < 2 ^ 16 ∧ p.2 < 2 ^ 22)

/-- `load_program(map)`: overwrites the program store at the given addresses; a map with any other pair is refused
whole (R275, log entry 16). -/
def State.loadProgram (s : State) (pairs : List (Nat × Nat)) : Host.Outcome State Fault Refusal :=
  if pairs.all programPairOk then
    .next { s with rom := pairs.foldl (fun m p => m.put p.1 (BitVec.ofNat 22 p.2)) s.rom }
  else .refused .programPairOutOfRange

/-- A pair `load_data` takes: a RAM address and a value below 2^16 (R276). -/
def dataPairOk (p : Nat × Nat) : Bool := decide (0x0100 ≤ p.1 ∧ p.1 ≤ 0x01FF ∧ p.2 < 2 ^ 16)

/-- `load_data(map)`: overwrites RAM cells, not through the bus; a map with any other pair is refused whole (R276,
log entry 16). -/
def State.loadData (s : State) (pairs : List (Nat × Nat)) : Host.Outcome State Fault Refusal :=
  if pairs.all dataPairOk then
    .next { s with ram := pairs.foldl (fun m p => Memory.write m p.1 (BitVec.ofNat 16 p.2)) s.ram }
  else .refused .dataPairOutOfRange

/-- A launch preset: a register write that leaves `pcw` as it is (R269). -/
def State.preset (s : State) (i : RegIdx) (v : Word) : State := { s.write i v with pcw := s.pcw }

/-- Construction from a configuration, a program image, a RAM image and register presets (R260, R269). The port table is
not tested: what becomes of one without exactly one display slot and one debug slot (R242, `Config.wf`) the spec leaves
open, and here it gives a Running core like any other (DESIGN CHOICE, log entry 18, safe). -/
def construct (cfg : Config) (program data : List (Nat × Nat)) (presets : List (RegIdx × Word)) :
    Host.Outcome State Fault Refusal :=
  match { State.reset with cfg := cfg }.loadProgram program with
  | .fault f => .fault f
  | .refused r => .refused r
  | .next s =>
    match s.loadData data with
    | .fault f => .fault f
    | .refused r => .refused r
    | .next t => .next (presets.foldl (fun u p => u.preset p.1 p.2) t)

/-- `is_running()` (R266). -/
def State.isRunning (s : State) : Bool := s.running && s.fault.isNone

/-- What the host may read between ticks (R268). -/
inductive Observation where
  /-- Every register, every RAM cell from 0x0100 on, the output log, `running` and the fault record. -/
  | all (regs : Vector Word 16) (ram : Vector Word 256) (log : List OutputRecord) (running : Bool)
      (fault : Option FaultRecord)
  /-- After an error raised in execute, the fault record alone (R232). -/
  | faultOnly (record : FaultRecord)
  deriving DecidableEq, Repr

/-- Registers, RAM, log, `running` and the record, read without changing anything. -/
def State.observeAll (s : State) : Observation :=
  .all (Vector.ofFn s.read) (Vector.ofFn fun i => Memory.read s.ram (0x0100 + i.val)) s.log s.running s.fault

/-- Observation (R268). -/
def State.observe (s : State) : Observation :=
  match s.fault with
  | none => s.observeAll
  | some r => if r.cause.beforeExecute then s.observeAll else .faultOnly r

end Sys2Proof.Machine
end

