-- ==== Sys2Proof/Safety.lean ====
section
/-! DEFINITION. The run states (70_reset_and_hazards.md R261, R273) and the invariant that every tick keeps. -/

namespace Sys2Proof.Machine

/-- Halted: `running` false and no fault (R261); a run that reaches it has ended normally (R273). -/
def State.halted (s : State) : Bool := !s.running && s.fault.isNone

/-- Faulted: a fault is recorded (R233, R261); a run that reaches it has ended in error (R273). -/
def State.faulted (s : State) : Bool := s.fault.isSome

/-- What holds at every tick boundary: RAM and the program store in canonical form, register 0 zero (R21), `pcw` false
(R30), and a legal port table (R242). -/
def State.inv (s : State) : Bool :=
  Memory.wf s.ram && Store.wf s.rom && s.regs[0] == 0#16 && !s.pcw && s.cfg.wf

end Sys2Proof.Machine
end

