-- ==== Sys2Proof/Certificates/Slice0/Obligations.lean ====
section
/-! DEFINITION. The statements for the provers, each from the rules of spec/ that its docstring names. -/

namespace Sys2Proof.Claims

open Sys2Proof.Machine

/-! Frames -/

/-- Registers outside `W`, the program store, the run state, the configuration and (but for `pcw`) every other control
bit are unchanged; `pcw` is set exactly by a write of register 7 (R24). -/
def RegFrame (s t : State) (W : List RegIdx) : Prop :=
  (∀ j, j ∉ W → t.read j = s.read j) ∧ t.pcw = (s.pcw || decide (7 ∈ W)) ∧
  t.rom = s.rom ∧ t.running = s.running ∧ t.fault = s.fault ∧ t.cfg = s.cfg

/-- Every RAM cell reads as before and nothing was output. -/
def MemFrame (s t : State) : Prop := (∀ a, Memory.read t.ram a = Memory.read s.ram a) ∧ t.log = s.log

/-- What an instruction that stores nothing and takes no free value leaves unchanged. -/
def Frame (s t : State) (W : List RegIdx) : Prop := RegFrame s t W ∧ MemFrame s t ∧ t.draws = s.draws

/-- The 16-bit value of a sign-extended 8-bit immediate (R100). -/
def immWord (k8 : BitVec 8) : Word := BitVec.ofInt 16 k8.toInt

/-! Flags (R123, R124) -/

/-- OVF of A + B. -/
def AddOverflows (m : OvfMode) (a b : Word) : Prop :=
  match m with
  | .unsigned => 65536 ≤ a.toNat + b.toNat
  | .signed => a.toInt + b.toInt < -32768 ∨ 32767 < a.toInt + b.toInt

/-- OVF of A - B. -/
def SubOverflows (m : OvfMode) (a b : Word) : Prop :=
  match m with
  | .unsigned => a.toNat < b.toNat
  | .signed => a.toInt - b.toInt < -32768 ∨ 32767 < a.toInt - b.toInt

/-- `fl` holds Z in bit 0, OVF in bits 1 and 3, S in bit 2 and zeros above, for the result `r`. -/
def FlagsAre (fl r : Word) (ovf : Prop) : Prop :=
  (fl.getLsbD 0 = true ↔ r.toNat = 0) ∧ (fl.getLsbD 1 = true ↔ ovf) ∧
  (fl.getLsbD 2 = true ↔ 32768 ≤ r.toNat) ∧ (fl.getLsbD 3 = true ↔ ovf) ∧ fl.toNat < 16

/-- A + B and A - B modulo 2^16. -/
def sumOf (a b : Word) : Word := BitVec.ofInt 16 (a.toInt + b.toInt)
def differenceOf (a b : Word) : Word := BitVec.ofInt 16 (a.toInt - b.toInt)

/-! Shifts (R130, R132, R134, R138) -/

/-- `r` is A shifted right by `amt` with copies of its sign. -/
def AsrIs (m : ShiftWide) (a : Word) (amt : Nat) (r : Word) : Prop :=
  (amt < 16 → r.toInt = a.toInt / 2 ^ amt) ∧
  (16 ≤ amt → m = .saturate → r = if a.toInt < 0 then 0xFFFF#16 else 0#16) ∧
  (16 ≤ amt → m = .mod16 → r.toInt = a.toInt / 2 ^ (amt % 16))

/-- `r` is A shifted right by `amt` with zeros. -/
def LsrIs (m : ShiftWide) (a : Word) (amt : Nat) (r : Word) : Prop :=
  (amt < 16 → r.toNat = a.toNat / 2 ^ amt) ∧
  (16 ≤ amt → m = .saturate → r = 0#16) ∧
  (16 ≤ amt → m = .mod16 → r.toNat = a.toNat / 2 ^ (amt % 16))

/-- `r` is A shifted left by `amt`. -/
def LslIs (m : ShiftWide) (a : Word) (amt : Nat) (r : Word) : Prop :=
  (amt < 16 → r.toNat = a.toNat * 2 ^ amt % 65536) ∧
  (16 ≤ amt → m = .saturate → r = 0#16) ∧
  (16 ≤ amt → m = .mod16 → r.toNat = a.toNat * 2 ^ (amt % 16) % 65536)

/-! The memory bus (R53, R54, R57, R63 to R65) -/

/-- The kind of the port at `a`, for an address below 32. -/
def portAt (s : State) (a : Word) : PortKind := (s.cfg.portKind.toList[a.toNat]?).getD .unimplemented

/-- The error that a read of address `a` raises, if any. -/
def readFault (s : State) (a : Word) : Option Fault :=
  if a.toNat < 0x20 then (if portAt s a = .null then none else some (.unimplementedPeripheral a .read))
  else if a.toNat < 0x100 then some (.unimplementedPeripheral a .read)
  else if a.toNat < 0x200 then none
  else if s.cfg.strictOob then some (.outOfBounds a .read) else none

/-- The error that a write to address `a` raises, if any. -/
def writeFault (s : State) (a : Word) : Option Fault :=
  if a.toNat < 0x20 then (if portAt s a = .unimplemented then some (.unimplementedPeripheral a .write) else none)
  else if a.toNat < 0x100 then some (.unimplementedPeripheral a .write)
  else if a.toNat < 0x200 then none
  else if s.cfg.strictOob then some (.outOfBounds a .write) else none

/-- What a read of address `a` that raises no error gives: a RAM cell, or 0. -/
def readValue (s : State) (a : Word) : Word :=
  if 0x100 ≤ a.toNat ∧ a.toNat < 0x200 then Memory.read s.ram a.toNat else 0#16

/-- `t` has the memory and log of `s` after a write of `v` to `a` that raises no error: one RAM cell, or one record on
an output port, or nothing. -/
def Stored (s t : State) (a v : Word) : Prop :=
  (∀ b, Memory.read t.ram b =
    if 0x100 ≤ a.toNat ∧ a.toNat < 0x200 ∧ b = a.toNat then v else Memory.read s.ram b) ∧
  t.log = s.log ++
    (if a.toNat < 0x20 then
      match portAt s a with
      | .binaryDisplay => [⟨.binaryDisplay, v⟩]
      | .debug => [⟨.debug, v⟩]
      | .null => []
      | .unimplemented => []
     else [])

/-- Scaled-index and immediate-offset addresses (R172, R175), from the registers and the fields. -/
def scaledAddr (s : State) (rp : RegIdx) (sc : BitVec 2) (off4 : BitVec 4) : Word :=
  BitVec.ofNat 16 ((s.read rp).toNat + 2 ^ sc.toNat * (s.read 1).toNat + off4.toNat)
def offsetAddr (s : State) (rp : RegIdx) (off6 : BitVec 6) : Word :=
  BitVec.ofNat 16 ((s.read rp).toNat + off6.toNat)

/-- A load of address `a` into register `rd` that completes. -/
def Loads (s : State) (rd : RegIdx) (a : Word) (o : Host.Outcome State Fault Refusal) : Prop :=
  ∃ t, o = .next t ∧ (rd ≠ 0 → t.read rd = readValue s a) ∧ Frame s t [rd]

/-- A store of `v` to address `a` that completes. -/
def Stores (s : State) (a v : Word) (o : Host.Outcome State Fault Refusal) : Prop :=
  ∃ t, o = .next t ∧ Stored s t a v ∧ RegFrame s t [] ∧ t.draws = s.draws

/-! Branches (R205) -/

/-- PC takes the branch's own address plus the sign-extended offset if `taken`, and nothing else changes. -/
def Branches (s : State) (off8 : BitVec 8) (taken : Prop) (o : Host.Outcome State Fault Refusal) : Prop :=
  ∃ t, o = .next t ∧
    (taken → t.read 7 = BitVec.ofInt 16 ((s.read 7).toNat + off8.toInt) ∧ Frame s t [7]) ∧ (¬ taken → t = s)

/-- The same after register 1 took the value `pt`; the operands are the registers after that. -/
def PtBranches (s : State) (pt : Word) (off8 : BitVec 8) (taken : Prop)
    (o : Host.Outcome State Fault Refusal) : Prop :=
  ∃ t, o = .next t ∧ t.read 1 = pt ∧
    (taken → t.read 7 = BitVec.ofInt 16 ((s.read 7).toNat + off8.toInt) ∧ Frame s t [1, 7]) ∧
    (¬ taken → Frame s t [1])

/-- Register `r` when register 1 holds `pt`. -/
def readWithPt (s : State) (pt : Word) (r : RegIdx) : Word := if r = 1 then pt else s.read r

/-! Binary16 (R150 to R153) -/

/-- Exponent and fraction fields. -/
def expOf (v : Word) : Nat := v.toNat / 1024 % 32
def fracOf (v : Word) : Nat := v.toNat % 1024
abbrev IsNan (v : Word) : Prop := expOf v = 31 ∧ fracOf v ≠ 0
abbrev IsInf (v : Word) : Prop := expOf v = 31 ∧ fracOf v = 0
abbrev IsFinite (v : Word) : Prop := expOf v ≠ 31
abbrev IsZero (v : Word) : Prop := expOf v = 0 ∧ fracOf v = 0

/-- The sign bit. -/
def signOf (v : Word) : Bool := decide (32768 ≤ v.toNat)

/-- The rational value of a finite pattern (the value table of R150). -/
def halfValue (v : Word) : ℚ :=
  (if signOf v then -1 else 1) *
    (if expOf v = 0 then (fracOf v : ℚ) / 1024 / 2 ^ 14
     else (1 + (fracOf v : ℚ) / 1024) * 2 ^ (expOf v) / 2 ^ 15)

/-- The pattern of infinity and of zero with a sign. -/
def infinity (neg : Bool) : Word := if neg then 0xFC00#16 else 0x7C00#16
def zeroWord (neg : Bool) : Word := if neg then 0x8000#16 else 0x0000#16

/-- `w` is `x` rounded to nearest, ties to even: no finite number is nearer, of two nearest numbers the even one, an
infinity from 65520 on, and the sign of `x` kept by a result of magnitude 0 (R151, R152). -/
def RoundsTo (x : ℚ) (w : Word) : Prop :=
  (|x| < 65520 → IsFinite w ∧ (∀ u, IsFinite u → |halfValue w - x| ≤ |halfValue u - x|) ∧
    (∀ u, IsFinite u → halfValue u ≠ halfValue w → |halfValue u - x| = |halfValue w - x| → w.toNat % 2 = 0)) ∧
  (65520 ≤ |x| → w = infinity (decide (x < 0))) ∧
  (x ≠ 0 → signOf w = decide (x < 0))

/-- What an FPU instruction leaves unchanged; only the count of free values may move (log entry 5). -/
def FloatFrame (s t : State) (W : List RegIdx) : Prop := RegFrame s t W ∧ MemFrame s t

/-- An FPU instruction with destination `rd` completes and its result, where register 0 does not drop it, is `P`. -/
def FloatResult (s : State) (rd : RegIdx) (o : Host.Outcome State Fault Refusal) (P : Word → Prop) : Prop :=
  ∃ t, o = .next t ∧ FloatFrame s t [rd] ∧ (rd ≠ 0 → P (t.read rd))

/-! Whole-machine helpers -/

/-- add and sub in both forms (R28). -/
def isAddSub : Instr → Bool
  | .add _ _ _ | .addi _ _ _ | .sub _ _ _ | .subi _ _ _ => true
  | _ => false

/-- The destination field of an instruction that has one. -/
def destOf : Instr → Option RegIdx
  | .mov rd _ | .add rd _ _ | .addi rd _ _ | .sub rd _ _ | .subi rd _ _ | .asr rd _ _ | .asri rd _ _
  | .lsr rd _ _ | .lsri rd _ _ | .lsl rd _ _ | .lsli rd _ _ | .mul rd _ _ | .muli rd _ _
  | .or rd _ _ _ _ | .xor rd _ _ _ _ | .nor rd _ _ _ _ | .xnor rd _ _ _ _ | .pop rd
  | .fadd rd _ _ | .fsub rd _ _ | .fmul rd _ _ | .fdiv rd _ _ | .ftoi rd _ | .itof rd _ | .utof rd _
  | .ldx rd _ _ _ | .ld rd _ _ => some rd
  | _ => none

/-- The instructions that write the data space (R68). -/
def isStore : Instr → Bool
  | .stx _ _ _ _ | .st _ _ _ | .push _ | .call _ => true
  | _ => false

/-- The instructions that read the data space (R68). -/
def isLoad : Instr → Bool
  | .ldx _ _ _ _ | .ld _ _ _ | .pop _ => true
  | _ => false

/-- The core runs: a tick executes an instruction (R261). -/
abbrev Running (s : State) : Prop := s.running = true ∧ s.fault = none

end Sys2Proof.Claims

open Sys2Proof Sys2Proof.Machine Sys2Proof.Claims

/-! ## Encoding -/

/-- R92 to R97: a well-formed instruction is read back from its word with every operand. The positions are the spec's
decisions D1 to D16, and the three excluded spellings are log entry 8. -/
def Obligations.DecodeOfEncode : Prop := ∀ i : Instr, i.wellFormed = true → decode (encode i) = .ok i

/-- R92, R98: every word has at most one meaning, and a word that decodes is the encoding of what it decodes to, so
no bit of it is dropped. -/
def Obligations.EncodeOfDecode : Prop :=
  ∀ (w : InstrWord) (i : Instr), decode w = .ok i → encode i = w ∧ i.wellFormed = true

/-- The list of R102, in numbers: the words that raise DecodeError, and no others (D2, D3, D8). -/
def Obligations.ReservedWordsRejected : Prop :=
  ∀ w : InstrWord, (∃ r, decode w = .error r) ↔
    let f := fun lo n => w.toNat / 2 ^ lo % 2 ^ n
    (f 20 2 = 3 ∧ f 0 4 ≠ 7) ∨
    (f 20 2 = 2 ∧ f 12 1 = 1) ∨
    (f 20 2 = 1 ∧ f 17 3 ≠ 0 ∧ f 17 3 ≠ 3 ∧ f 12 1 = 0 ∧ f 8 4 ≠ 0) ∨
    (f 20 2 = 1 ∧ f 17 3 = 3 ∧ f 12 1 = 1) ∨
    (f 20 2 = 1 ∧ f 17 3 = 0 ∧ f 10 3 < 4 ∧
      (f 8 5 ∈ [2, 3, 5, 6, 7, 15] ∨
       (f 8 5 = 0 ∧ (f 4 4 ≠ 0 ∨ f 0 4 ≠ 0)) ∨
       (f 8 5 ∈ [1, 4] ∧ (f 13 4 ≠ 0 ∨ f 4 4 ≠ 0)) ∨
       (f 8 5 ∈ [12, 13, 14] ∧ f 4 4 ≠ 0)))

/-- One word of each family, as the spec's examples write it, decodes to the instruction the example names. -/
def Obligations.ExampleWordsDecode : Prop :=
  decode 0x000000#22 = .ok .nop ∧ decode 0x100400#22 = .ok .hlt ∧ decode 0x012343#22 = .ok (.mov 3 0x1234#16) ∧
  decode 0x300207#22 = .ok (.call 32#16) ∧ decode 0x2C6FE1#22 = .ok (.ijne 1 3 0xFE#8) ∧
  decode 0x125FF3#22 = .ok (.addi 3 2 0xFF#8) ∧ decode 0x164E43#22 = .ok (.nor 3 2 4 true true) ∧
  decode 0x104B43#22 = .ok (.fdiv 3 2 4) ∧ decode 0x105233#22 = .ok (.ldx 3 2 2#2 3#4) ∧
  decode 0x100103#22 = .ok (.pop 3) ∧ decode 0x100405#22 = .ok (.int 5#4)

/-! ## Reset -/

/-- The table of values after construction, but for RAM, whose image is the launch's (log entry 2): every register 0,
running, no fault, nothing output, no word loaded. -/
def Obligations.ResetValues : Prop :=
  (∀ i, State.reset.read i = 0#16) ∧ State.reset.running = true ∧ State.reset.pcw = false ∧
  State.reset.fault = none ∧ State.reset.log = [] ∧ (∀ a, State.reset.rom.get a = none)

/-- The state after construction meets the invariant, whatever the open parameters are. -/
def Obligations.ResetMeetsInvariant : Prop := State.reset.inv = true

/-! ## The tick -/

/-- R262: where the word at PC decodes to `i`, a tick of a running core is `exec i`, followed by the end of the tick or by
taking the error. -/
def Obligations.StepRunsDecodedInstruction : Prop :=
  ∀ (s : State) (w : InstrWord) (i : Instr), Running s → s.rom.get (s.read 7).toNat = some w → decode w = .ok i →
    (∀ t, exec i s = .next t → step s = .next t.finishTick) ∧ (∀ f, exec i s = .fault f → step s = .next (s.raise f))

/-- R26: a completed instruction that does not halt leaves PC as written, or advanced by one modulo 2^16 where nothing
wrote it, and `pcw` false; the advance changes nothing else. -/
def Obligations.PcAdvancesUnlessWritten : Prop :=
  ∀ (s t : State) (w : InstrWord) (i : Instr), Running s → s.rom.get (s.read 7).toNat = some w → decode w = .ok i →
    exec i s = .next t → t.running = true →
    ∃ u, step s = .next u ∧ u.pcw = false ∧
      (u.read 7).toNat = (if t.pcw then (t.read 7).toNat else ((t.read 7).toNat + 1) % 65536) ∧
      (∀ j, j ≠ 7 → u.read j = t.read j) ∧ MemFrame t u ∧ u.rom = t.rom ∧ u.running = t.running ∧
      u.fault = t.fault ∧ u.cfg = t.cfg ∧ u.draws = t.draws

/-- R218: a tick that halts does not advance PC. -/
def Obligations.HaltingTickParksPc : Prop :=
  ∀ (s t : State) (w : InstrWord) (i : Instr), Running s → s.rom.get (s.read 7).toNat = some w → decode w = .ok i →
    exec i s = .next t → t.running = false → step s = .next t ∧ t.read 7 = s.read 7

/-- R264 and R233 (their reading is D31 and D32): any number of ticks of a Halted or Faulted core changes nothing. -/
def Obligations.StoppedCoreStaysUnchanged : Prop :=
  ∀ (n : Nat) (s : State), (s.running = false ∨ s.fault.isSome = true) → core.run n s = .next s

/-- R60, R232 (D29): a fetch where no word is loaded records FetchFault with PC and changes nothing else. -/
def Obligations.UnloadedFetchFaults : Prop :=
  ∀ s : State, Running s → s.rom.get (s.read 7).toNat = none →
    step s = .next { s with fault := some ⟨.fetchFault (s.read 7), s.read 7⟩ }

/-- R99: a word that is no instruction records DecodeError with the word and PC and changes nothing else. -/
def Obligations.UndecodableWordFaults : Prop :=
  ∀ (s : State) (w : InstrWord) (r : DecodeReject), Running s → s.rom.get (s.read 7).toNat = some w →
    decode w = .error r → step s = .next { s with fault := some ⟨.decodeError w, s.read 7⟩ }

/-- R231, R232 (D31): an error in execute is recorded with the PC of the tick; the program store and the configuration
stay, and nothing is said of registers, RAM or log. That `running` stays true is no rule of the spec, which leaves it any
in Faulted (R261): it is the model's choice of log entry 6 (DEDUCED). -/
def Obligations.ExecuteErrorIsRecorded : Prop :=
  ∀ (s : State) (w : InstrWord) (i : Instr) (f : Fault), Running s → s.rom.get (s.read 7).toNat = some w →
    decode w = .ok i → exec i s = .fault f →
    ∃ t, step s = .next t ∧ t.fault = some ⟨f, s.read 7⟩ ∧ t.rom = s.rom ∧ t.running = true ∧ t.cfg = s.cfg

/-- R263: every tick ends in a next state, from every state. -/
def Obligations.EveryTickCompletes : Prop := ∀ s : State, ∃ t, step s = .next t

/-- Every tick keeps the invariant: RAM and program store canonical, register 0 zero, `pcw` false between ticks, a legal
port table. -/
def Obligations.EveryTickKeepsInvariant : Prop := ∀ s t : State, s.inv = true → step s = .next t → t.inv = true

/-- R61: no tick writes the program store; R8: none changes the configuration. -/
def Obligations.TicksNeverLoadProgram : Prop :=
  ∀ s t : State, step s = .next t → t.rom = s.rom ∧ t.cfg = s.cfg

/-- R29: `running` is true at reset, no tick sets it again, and only interrupt 0 (or nop under HALT_ON_NOP) clears it. -/
def Obligations.RunningClearedOnlyByHalt : Prop :=
  State.reset.running = true ∧ (∀ s t : State, step s = .next t → t.running = true → s.running = true) ∧
  (∀ (i : Instr) (s t : State), exec i s = .next t → s.running = true →
    (t.running = false ↔ i = .hlt ∨ i = .int 0#4 ∨ (i = .nop ∧ s.cfg.haltOnNop = true)))

/-- R24, R26: an instruction that completes without setting `pcw` has not changed PC. -/
def Obligations.PcChangesOnlyWithPcw : Prop :=
  ∀ (i : Instr) (s t : State), exec i s = .next t → t.pcw = false → t.read 7 = s.read 7

/-- R28, R144: an instruction other than add and sub whose destination is not register 8 leaves FL alone. -/
def Obligations.FlagsOnlyFromAddAndSub : Prop :=
  ∀ (i : Instr) (s t : State), exec i s = .next t → isAddSub i = false → destOf i ≠ some 8 → t.read 8 = s.read 8

/-- R68: only stx, st, push and call change RAM or the log. -/
def Obligations.OnlyStoresChangeMemory : Prop :=
  ∀ (i : Instr) (s t : State), exec i s = .next t → isStore i = false → MemFrame s t

/-- R66: an instruction appends at most one record to the output log and removes none. -/
def Obligations.LogGrowsByAtMostOne : Prop :=
  ∀ (i : Instr) (s t : State), exec i s = .next t → ∃ l, t.log = s.log ++ l ∧ l.length ≤ 1

/-- The raisers of R231: an error of execute comes from a load (with access read), from a store (with access write) or
from ftoi (with its operand). -/
def Obligations.ErrorsComeFromTheirRaisers : Prop :=
  ∀ (i : Instr) (s : State) (f : Fault), exec i s = .fault f →
    (isLoad i = true ∧ ∃ a, f = .unimplementedPeripheral a .read ∨ f = .outOfBounds a .read) ∨
    (isStore i = true ∧ ∃ a, f = .unimplementedPeripheral a .write ∨ f = .outOfBounds a .write) ∨
    (∃ rd ra, i = .ftoi rd ra ∧ f = .floatConversionFault (s.read ra))

/-! ## Registers and the memory bus -/

/-- R21 and R24 on the two register operations: register 0 reads 0 and drops writes; a write of register 7 sets `pcw`
whatever the value, and no other write does. -/
def Obligations.RegisterZeroAndPcWrites : Prop :=
  (∀ s : State, s.read 0 = 0#16) ∧ (∀ (s : State) (v : Word), s.write 0 v = s) ∧
  (∀ (s : State) (v : Word), (s.write 7 v).pcw = true) ∧
  (∀ (s : State) (i : RegIdx) (v : Word), i ≠ 7 → (s.write i v).pcw = s.pcw) ∧
  (∀ (s : State) (i j : RegIdx) (v : Word), i ≠ 0 → (s.write i v).read j = if j = i then v else s.read j)

/-- R55: a store to RAM is read back, changes no other address, and a second equal store changes nothing. -/
def Obligations.RamRoundTrip : Prop :=
  ∀ (s : State) (a v : Word), Memory.wf s.ram = true → 0x100 ≤ a.toNat → a.toNat ≤ 0x1FF →
    (∃ v0, s.memRead a = .ok v0) ∧
    ∃ t, s.memWrite a v = .ok t ∧ t.memRead a = .ok v ∧ (∀ b, b ≠ a → t.memRead b = s.memRead b) ∧
      t = { s with ram := t.ram } ∧ t.memWrite a v = .ok t

/-- R57: from 0x0200 on a read gives 0 and a write is dropped by default, and both fail under STRICT_OOB, which is off
at reset. -/
def Obligations.OutOfBoundsPolicy : Prop :=
  State.reset.cfg.strictOob = false ∧
  ∀ (s : State) (a v : Word), 0x200 ≤ a.toNat →
    (s.cfg.strictOob = false → s.memRead a = .ok 0#16 ∧ s.memWrite a v = .ok s) ∧
    (s.cfg.strictOob = true →
      s.memRead a = .error (.outOfBounds a .read) ∧ s.memWrite a v = .error (.outOfBounds a .write))

/-- R65 (address p selects port p by D25, the record by D28): a store to port p by the kind of its slot. -/
def Obligations.PortStores : Prop :=
  ∀ (s : State) (p : Fin 32) (v : Word),
    s.memWrite (BitVec.ofNat 16 p.val) v =
      match s.cfg.portKind[p.val] with
      | .null => .ok s
      | .binaryDisplay => .ok { s with log := s.log ++ [⟨.binaryDisplay, v⟩] }
      | .debug => .ok { s with log := s.log ++ [⟨.debug, v⟩] }
      | .unimplemented => .error (.unimplementedPeripheral (BitVec.ofNat 16 p.val) .write)

/-- R63, R64 (D25, D27): a load from a null port gives 0, any other port load and any access to 0x0020 to 0x00FF fails. -/
def Obligations.PortLoadsAndHole : Prop :=
  (∀ (s : State) (p : Fin 32), s.memRead (BitVec.ofNat 16 p.val) =
    if s.cfg.portKind[p.val] = .null then .ok 0#16
    else .error (.unimplementedPeripheral (BitVec.ofNat 16 p.val) .read)) ∧
  (∀ (s : State) (a v : Word), 0x20 ≤ a.toNat → a.toNat < 0x100 →
    s.memRead a = .error (.unimplementedPeripheral a .read) ∧
    s.memWrite a v = .error (.unimplementedPeripheral a .write))

/-! ## Integer arithmetic -/

/-- R126, R127: add and addi complete in every state, the result is the sum modulo 2^16, and nothing but the
destination and FL changes. -/
def Obligations.AddWritesWrappedSum : Prop :=
  (∀ (s : State) (rd ra rb : RegIdx), ∃ t, exec (.add rd ra rb) s = .next t ∧ Frame s t [rd, 8] ∧
    (rd ≠ 0 → rd ≠ 8 → (t.read rd).toNat = ((s.read ra).toNat + (s.read rb).toNat) % 65536)) ∧
  (∀ (s : State) (rd ra : RegIdx) (k8 : BitVec 8), ∃ t, exec (.addi rd ra k8) s = .next t ∧ Frame s t [rd, 8] ∧
    (rd ≠ 0 → rd ≠ 8 → ((t.read rd).toNat : Int) = ((s.read ra).toNat + k8.toInt) % 65536))

/-- R128, R129: the same of sub and subi with the difference. -/
def Obligations.SubWritesWrappedDifference : Prop :=
  (∀ (s : State) (rd ra rb : RegIdx), ∃ t, exec (.sub rd ra rb) s = .next t ∧ Frame s t [rd, 8] ∧
    (rd ≠ 0 → rd ≠ 8 → ((t.read rd).toNat : Int) = ((s.read ra).toNat - (s.read rb).toNat) % 65536)) ∧
  (∀ (s : State) (rd ra : RegIdx) (k8 : BitVec 8), ∃ t, exec (.subi rd ra k8) s = .next t ∧ Frame s t [rd, 8] ∧
    (rd ≠ 0 → rd ≠ 8 → ((t.read rd).toNat : Int) = ((s.read ra).toNat - k8.toInt) % 65536))

/-- R123, R124 (D18, D19, D20): FL after add, addi, sub and subi with another destination, in both overflow modes. -/
def Obligations.AddSubSetFlags : Prop :=
  ∀ (s : State) (rd ra : RegIdx), rd ≠ 8 →
    (∀ rb, ∃ t, exec (.add rd ra rb) s = .next t ∧
      FlagsAre (t.read 8) (sumOf (s.read ra) (s.read rb)) (AddOverflows s.cfg.ovfMode (s.read ra) (s.read rb))) ∧
    (∀ k8, ∃ t, exec (.addi rd ra k8) s = .next t ∧
      FlagsAre (t.read 8) (sumOf (s.read ra) (immWord k8)) (AddOverflows s.cfg.ovfMode (s.read ra) (immWord k8))) ∧
    (∀ rb, ∃ t, exec (.sub rd ra rb) s = .next t ∧
      FlagsAre (t.read 8) (differenceOf (s.read ra) (s.read rb))
        (SubOverflows s.cfg.ovfMode (s.read ra) (s.read rb))) ∧
    (∀ k8, ∃ t, exec (.subi rd ra k8) s = .next t ∧
      FlagsAre (t.read 8) (differenceOf (s.read ra) (immWord k8))
        (SubOverflows s.cfg.ovfMode (s.read ra) (immWord k8)))

/-- R125 (D21): with destination FL the flags stay under flags_last and the result under result_last. -/
def Obligations.AddSubIntoFlags : Prop :=
  ∀ (s : State) (ra : RegIdx) (i : Instr) (r : Word) (ovf : Prop),
    ((∃ rb, i = .add 8 ra rb ∧ r = sumOf (s.read ra) (s.read rb) ∧
        ovf = AddOverflows s.cfg.ovfMode (s.read ra) (s.read rb)) ∨
     (∃ k8, i = .addi 8 ra k8 ∧ r = sumOf (s.read ra) (immWord k8) ∧
        ovf = AddOverflows s.cfg.ovfMode (s.read ra) (immWord k8)) ∨
     (∃ rb, i = .sub 8 ra rb ∧ r = differenceOf (s.read ra) (s.read rb) ∧
        ovf = SubOverflows s.cfg.ovfMode (s.read ra) (s.read rb)) ∨
     (∃ k8, i = .subi 8 ra k8 ∧ r = differenceOf (s.read ra) (immWord k8) ∧
        ovf = SubOverflows s.cfg.ovfMode (s.read ra) (immWord k8))) →
    ∃ t, exec i s = .next t ∧ Frame s t [8] ∧
      (s.cfg.flDstOrder = .flagsLast → FlagsAre (t.read 8) r ovf) ∧
      (s.cfg.flDstOrder = .resultLast → t.read 8 = r)

/-- R130, R131, R138 (D22): asr and asri. -/
def Obligations.AsrShiftsWithSign : Prop :=
  (∀ (s : State) (rd ra rb : RegIdx), ∃ t, exec (.asr rd ra rb) s = .next t ∧ Frame s t [rd] ∧
    (rd ≠ 0 → AsrIs s.cfg.shiftWide (s.read ra) (s.read rb).toNat (t.read rd))) ∧
  (∀ (s : State) (rd ra : RegIdx) (k8 : BitVec 8), ∃ t, exec (.asri rd ra k8) s = .next t ∧ Frame s t [rd] ∧
    (rd ≠ 0 → AsrIs s.cfg.shiftWide (s.read ra) (immWord k8).toNat (t.read rd)))

/-- R132, R133, R138 (D22): lsr and lsri. -/
def Obligations.LsrShiftsInZeros : Prop :=
  (∀ (s : State) (rd ra rb : RegIdx), ∃ t, exec (.lsr rd ra rb) s = .next t ∧ Frame s t [rd] ∧
    (rd ≠ 0 → LsrIs s.cfg.shiftWide (s.read ra) (s.read rb).toNat (t.read rd))) ∧
  (∀ (s : State) (rd ra : RegIdx) (k8 : BitVec 8), ∃ t, exec (.lsri rd ra k8) s = .next t ∧ Frame s t [rd] ∧
    (rd ≠ 0 → LsrIs s.cfg.shiftWide (s.read ra) (immWord k8).toNat (t.read rd)))

/-- R134, R135, R138 (D22): lsl and lsli. -/
def Obligations.LslShiftsLeft : Prop :=
  (∀ (s : State) (rd ra rb : RegIdx), ∃ t, exec (.lsl rd ra rb) s = .next t ∧ Frame s t [rd] ∧
    (rd ≠ 0 → LslIs s.cfg.shiftWide (s.read ra) (s.read rb).toNat (t.read rd))) ∧
  (∀ (s : State) (rd ra : RegIdx) (k8 : BitVec 8), ∃ t, exec (.lsli rd ra k8) s = .next t ∧ Frame s t [rd] ∧
    (rd ≠ 0 → LslIs s.cfg.shiftWide (s.read ra) (immWord k8).toNat (t.read rd)))

/-- R136, R137: mul and muli give the low 16 bits of the product and write no flag. -/
def Obligations.MulWritesLowProduct : Prop :=
  (∀ (s : State) (rd ra rb : RegIdx), ∃ t, exec (.mul rd ra rb) s = .next t ∧ Frame s t [rd] ∧
    (rd ≠ 0 → (t.read rd).toNat = ((s.read ra).toNat * (s.read rb).toNat) % 65536)) ∧
  (∀ (s : State) (rd ra : RegIdx) (k8 : BitVec 8), ∃ t, exec (.muli rd ra k8) s = .next t ∧ Frame s t [rd] ∧
    (rd ≠ 0 → (t.read rd).toNat = ((s.read ra).toNat * (immWord k8).toNat) % 65536))

/-- R140 to R143, bit by bit: or, xor, nor and xnor with each operand negated or not. -/
def Obligations.BitwiseWritesEachBit : Prop :=
  ∀ (s : State) (rd ra rb : RegIdx) (nA nB : Bool),
    let a := fun k => (s.read ra).getLsbD k ^^ nA
    let b := fun k => (s.read rb).getLsbD k ^^ nB
    (∃ t, exec (.or rd ra rb nA nB) s = .next t ∧ Frame s t [rd] ∧
      (rd ≠ 0 → ∀ k, k < 16 → (t.read rd).getLsbD k = (a k || b k))) ∧
    (∃ t, exec (.xor rd ra rb nA nB) s = .next t ∧ Frame s t [rd] ∧
      (rd ≠ 0 → ∀ k, k < 16 → (t.read rd).getLsbD k = (a k ^^ b k))) ∧
    (∃ t, exec (.nor rd ra rb nA nB) s = .next t ∧ Frame s t [rd] ∧
      (rd ≠ 0 → ∀ k, k < 16 → (t.read rd).getLsbD k = !(a k || b k))) ∧
    (∃ t, exec (.xnor rd ra rb nA nB) s = .next t ∧ Frame s t [rd] ∧
      (rd ≠ 0 → ∀ k, k < 16 → (t.read rd).getLsbD k = !(a k ^^ b k)))

/-! ## Moves, loads and stores -/

/-- R170, R200: mov writes its immediate, jmp writes it to PC. -/
def Obligations.MovAndJmpWriteImmediate : Prop :=
  (∀ (s : State) (rd : RegIdx) (k16 : BitVec 16), ∃ t, exec (.mov rd k16) s = .next t ∧ Frame s t [rd] ∧
    (rd ≠ 0 → t.read rd = k16)) ∧
  (∀ (s : State) (k16 : BitVec 16), ∃ t, exec (.jmp k16) s = .next t ∧ Frame s t [7] ∧ t.read 7 = k16)

/-- R173 (addresses by D9 to D11, port errors by D25 and D27): ldx completes where the read of its address raises no
error, and raises that error otherwise. -/
def Obligations.LdxLoadsScaledAddress : Prop :=
  ∀ (s : State) (rd rp : RegIdx) (sc : BitVec 2) (off4 : BitVec 4),
    (readFault s (scaledAddr s rp sc off4) = none →
      Loads s rd (scaledAddr s rp sc off4) (exec (.ldx rd rp sc off4) s)) ∧
    (∀ f, readFault s (scaledAddr s rp sc off4) = some f → exec (.ldx rd rp sc off4) s = .fault f)

/-- R176 (D10, D11, D25, D27): ld. -/
def Obligations.LdLoadsOffsetAddress : Prop :=
  ∀ (s : State) (rd rp : RegIdx) (off6 : BitVec 6),
    (readFault s (offsetAddr s rp off6) = none → Loads s rd (offsetAddr s rp off6) (exec (.ld rd rp off6) s)) ∧
    (∀ f, readFault s (offsetAddr s rp off6) = some f → exec (.ld rd rp off6) s = .fault f)

/-- R174 (D9 to D11, D25): stx, over canonical RAM. -/
def Obligations.StxStoresScaledAddress : Prop :=
  ∀ (s : State) (rs rp : RegIdx) (sc : BitVec 2) (off4 : BitVec 4), Memory.wf s.ram = true →
    (writeFault s (scaledAddr s rp sc off4) = none →
      Stores s (scaledAddr s rp sc off4) (s.read rs) (exec (.stx rs rp sc off4) s)) ∧
    (∀ f, writeFault s (scaledAddr s rp sc off4) = some f → exec (.stx rs rp sc off4) s = .fault f)

/-- R177 (D10, D11, D25): st, over canonical RAM. -/
def Obligations.StStoresOffsetAddress : Prop :=
  ∀ (s : State) (rs rp : RegIdx) (off6 : BitVec 6), Memory.wf s.ram = true →
    (writeFault s (offsetAddr s rp off6) = none →
      Stores s (offsetAddr s rp off6) (s.read rs) (exec (.st rs rp off6) s)) ∧
    (∀ f, writeFault s (offsetAddr s rp off6) = some f → exec (.st rs rp off6) s = .fault f)

/-! ## Stack and calls -/

/-- R196: push stores at SP and then increments SP, over canonical RAM; the errors are those of the store at SP. -/
def Obligations.PushStoresThenIncrements : Prop :=
  ∀ (s : State) (ra : RegIdx), Memory.wf s.ram = true →
    (writeFault s (s.read 15) = none →
      ∃ t, exec (.push ra) s = .next t ∧ Stored s t (s.read 15) (s.read ra) ∧ RegFrame s t [15] ∧
        t.draws = s.draws ∧ (t.read 15).toNat = ((s.read 15).toNat + 1) % 65536) ∧
    (∀ f, writeFault s (s.read 15) = some f → exec (.push ra) s = .fault f)

/-- R198: pop decrements SP, reads there, and writes the destination last, so that a destination SP keeps the value
read; the errors are those of the read at the decremented SP. -/
def Obligations.PopDecrementsThenLoads : Prop :=
  ∀ (s : State) (rd : RegIdx),
    (readFault s (s.read 15 - 1#16) = none →
      ∃ t, exec (.pop rd) s = .next t ∧ Frame s t [15, rd] ∧
        (rd ≠ 0 → t.read rd = readValue s (s.read 15 - 1#16)) ∧
        (rd ≠ 15 → t.read 15 = s.read 15 - 1#16)) ∧
    (∀ f, readFault s (s.read 15 - 1#16) = some f → exec (.pop rd) s = .fault f)

/-- R201: call stores the next address at SP, increments SP and writes PC, over canonical RAM; the errors are those of
the store at SP. -/
def Obligations.CallPushesReturnAddress : Prop :=
  ∀ (s : State) (k16 : BitVec 16), Memory.wf s.ram = true →
    (writeFault s (s.read 15) = none →
      ∃ t, exec (.call k16) s = .next t ∧ Stored s t (s.read 15) (s.read 7 + 1#16) ∧ RegFrame s t [15, 7] ∧
        t.draws = s.draws ∧ (t.read 15).toNat = ((s.read 15).toNat + 1) % 65536 ∧ t.read 7 = k16) ∧
    (∀ f, writeFault s (s.read 15) = some f → exec (.call k16) s = .fault f)

/-- R202: a call with SP in RAM, its tick ended, followed by `pop pc`, comes back to the word after the call with SP as
before. -/
def Obligations.PopPcReturnsFromCall : Prop :=
  ∀ (s : State) (k16 : BitVec 16), Memory.wf s.ram = true → 0x100 ≤ (s.read 15).toNat → (s.read 15).toNat ≤ 0x1FF →
    ∃ t u, exec (.call k16) s = .next t ∧ t.read 7 = k16 ∧ exec (.pop 7) t.advancePc = .next u ∧
      u.read 7 = s.read 7 + 1#16 ∧ u.read 15 = s.read 15

/-! ## Branches -/

/-- R206 to R211: the six comparing branches. -/
def Obligations.BranchesCompareRegisters : Prop :=
  ∀ (s : State) (r1 r2 : RegIdx) (off8 : BitVec 8),
    Branches s off8 ((s.read r2).toInt ≤ (s.read r1).toInt) (exec (.jge r1 r2 off8) s) ∧
    Branches s off8 ((s.read r1).toInt < (s.read r2).toInt) (exec (.jl r1 r2 off8) s) ∧
    Branches s off8 (s.read r1 = s.read r2) (exec (.je r1 r2 off8) s) ∧
    Branches s off8 (s.read r1 ≠ s.read r2) (exec (.jne r1 r2 off8) s) ∧
    Branches s off8 ((s.read r2).toNat ≤ (s.read r1).toNat) (exec (.jae r1 r2 off8) s) ∧
    Branches s off8 ((s.read r1).toNat < (s.read r2).toNat) (exec (.jb r1 r2 off8) s)

/-- R213 (D13): ijne increments PT, then compares. -/
def Obligations.IjneIncrementsThenCompares : Prop :=
  ∀ (s : State) (r1 r2 : RegIdx) (off8 : BitVec 8) (pt : Word), pt = BitVec.ofNat 16 ((s.read 1).toNat + 1) →
    PtBranches s pt off8 (readWithPt s pt r1 ≠ readWithPt s pt r2) (exec (.ijne r1 r2 off8) s)

/-- R214 (D13): djge decrements PT, then compares signed. -/
def Obligations.DjgeDecrementsThenCompares : Prop :=
  ∀ (s : State) (r1 r2 : RegIdx) (off8 : BitVec 8) (pt : Word), pt = BitVec.ofInt 16 ((s.read 1).toInt - 1) →
    PtBranches s pt off8 ((readWithPt s pt r2).toInt ≤ (readWithPt s pt r1).toInt) (exec (.djge r1 r2 off8) s)

/-! ## nop, int, hlt -/

/-- R216 to R219: hlt and int 0 only clear `running`, int 1 to 15 and nop do nothing, and nop halts under HALT_ON_NOP
(D15, D35). -/
def Obligations.HaltAndNopEffects : Prop :=
  ∀ s : State, exec .hlt s = .next { s with running := false } ∧
    (∀ n : BitVec 4, exec (.int n) s = .next { s with running := if n.toNat = 0 then false else s.running }) ∧
    exec .nop s = .next { s with running := if s.cfg.haltOnNop then false else s.running }

/-! ## Floating point (the value table and special values are general knowledge by the spec's own mark, log entry 9) -/

/-- R154: fadd completes in every state and on finite operands gives the exact sum rounded once; an exact zero is +0 but
for (-0) + (-0). -/
def Obligations.FaddRoundsExactSum : Prop :=
  ∀ (s : State) (rd ra rb : RegIdx), FloatResult s rd (exec (.fadd rd ra rb) s) fun w =>
    IsFinite (s.read ra) → IsFinite (s.read rb) →
      RoundsTo (halfValue (s.read ra) + halfValue (s.read rb)) w ∧
      (halfValue (s.read ra) + halfValue (s.read rb) = 0 →
        w = zeroWord (decide (s.read ra = 0x8000#16 ∧ s.read rb = 0x8000#16)))

/-- R155: fsub with the exact difference; an exact zero is +0 but for (-0) - (+0). -/
def Obligations.FsubRoundsExactDifference : Prop :=
  ∀ (s : State) (rd ra rb : RegIdx), FloatResult s rd (exec (.fsub rd ra rb) s) fun w =>
    IsFinite (s.read ra) → IsFinite (s.read rb) →
      RoundsTo (halfValue (s.read ra) - halfValue (s.read rb)) w ∧
      (halfValue (s.read ra) - halfValue (s.read rb) = 0 →
        w = zeroWord (decide (s.read ra = 0x8000#16 ∧ s.read rb = 0x0000#16)))

/-- R156: fmul with the exact product; a zero product has the exclusive-or sign. -/
def Obligations.FmulRoundsExactProduct : Prop :=
  ∀ (s : State) (rd ra rb : RegIdx), FloatResult s rd (exec (.fmul rd ra rb) s) fun w =>
    IsFinite (s.read ra) → IsFinite (s.read rb) →
      RoundsTo (halfValue (s.read ra) * halfValue (s.read rb)) w ∧
      (IsZero (s.read ra) ∨ IsZero (s.read rb) → w = zeroWord (signOf (s.read ra) ^^ signOf (s.read rb)))

/-- R157: fdiv with the exact quotient for a nonzero divisor; a zero quotient has the exclusive-or sign; a nonzero
number over zero is an infinity and never an error. -/
def Obligations.FdivRoundsExactQuotient : Prop :=
  ∀ (s : State) (rd ra rb : RegIdx), FloatResult s rd (exec (.fdiv rd ra rb) s) fun w =>
    IsFinite (s.read ra) → IsFinite (s.read rb) →
      (¬ IsZero (s.read rb) → RoundsTo (halfValue (s.read ra) / halfValue (s.read rb)) w ∧
        (IsZero (s.read ra) → w = zeroWord (signOf (s.read ra) ^^ signOf (s.read rb)))) ∧
      (IsZero (s.read rb) → ¬ IsZero (s.read ra) → w = infinity (signOf (s.read ra) ^^ signOf (s.read rb)))

/-- R153: the sums and differences with a NaN or an infinity. A NaN result is some NaN pattern (D23). -/
def Obligations.AddSubSpecialValues : Prop :=
  ∀ (s : State) (rd ra rb : RegIdx),
    let a := s.read ra
    let b := s.read rb
    FloatResult s rd (exec (.fadd rd ra rb) s) (fun w =>
      (IsNan a ∨ IsNan b → IsNan w) ∧
      (IsInf a → IsInf b → signOf a ≠ signOf b → IsNan w) ∧
      (IsInf a → (IsFinite b ∨ (IsInf b ∧ signOf a = signOf b)) → w = infinity (signOf a)) ∧
      (IsFinite a → IsInf b → w = infinity (signOf b))) ∧
    FloatResult s rd (exec (.fsub rd ra rb) s) (fun w =>
      (IsNan a ∨ IsNan b → IsNan w) ∧
      (IsInf a → IsInf b → signOf a = signOf b → IsNan w) ∧
      (IsInf a → (IsFinite b ∨ (IsInf b ∧ signOf a ≠ signOf b)) → w = infinity (signOf a)) ∧
      (IsFinite a → IsInf b → w = infinity (!signOf b)))

/-- R153: the products and quotients with a NaN, an infinity or 0 / 0 (D23 for the NaN pattern). -/
def Obligations.MulDivSpecialValues : Prop :=
  ∀ (s : State) (rd ra rb : RegIdx),
    let a := s.read ra
    let b := s.read rb
    FloatResult s rd (exec (.fmul rd ra rb) s) (fun w =>
      (IsNan a ∨ IsNan b → IsNan w) ∧
      ((IsInf a ∧ IsZero b) ∨ (IsZero a ∧ IsInf b) → IsNan w) ∧
      ((IsInf a ∧ ¬ IsNan b ∧ ¬ IsZero b) ∨ (¬ IsNan a ∧ ¬ IsZero a ∧ IsInf b) →
        w = infinity (signOf a ^^ signOf b))) ∧
    FloatResult s rd (exec (.fdiv rd ra rb) s) (fun w =>
      (IsNan a ∨ IsNan b → IsNan w) ∧
      ((IsInf a ∧ IsInf b) ∨ (IsZero a ∧ IsZero b) → IsNan w) ∧
      (IsInf a → IsFinite b → w = infinity (signOf a ^^ signOf b)) ∧
      (IsFinite a → IsInf b → w = zeroWord (signOf a ^^ signOf b)))

/-- R159 (D24): ftoi of a finite number truncates toward zero, modulo 2^16. -/
def Obligations.FtoiTruncates : Prop :=
  ∀ (s : State) (rd ra : RegIdx), IsFinite (s.read ra) →
    ∃ t, exec (.ftoi rd ra) s = .next t ∧ Frame s t [rd] ∧
      (rd ≠ 0 → t.read rd =
        BitVec.ofInt 16 (if halfValue (s.read ra) < 0 then ⌈halfValue (s.read ra)⌉ else ⌊halfValue (s.read ra)⌋))

/-- R159 (D24): ftoi of a NaN or an infinity raises FloatConversionFault with its operand. -/
def Obligations.FtoiFaultsOnNanAndInfinity : Prop :=
  ∀ (s : State) (rd ra : RegIdx), IsNan (s.read ra) ∨ IsInf (s.read ra) →
    exec (.ftoi rd ra) s = .fault (.floatConversionFault (s.read ra))

/-- R160, R161: itof and utof give the signed or unsigned integer rounded once, 0 giving +0. -/
def Obligations.IntegersRoundToHalf : Prop :=
  (∀ (s : State) (rd ra : RegIdx), ∃ t, exec (.itof rd ra) s = .next t ∧ Frame s t [rd] ∧
    (rd ≠ 0 → RoundsTo ((s.read ra).toInt : ℚ) (t.read rd) ∧ (s.read ra = 0#16 → t.read rd = 0#16))) ∧
  (∀ (s : State) (rd ra : RegIdx), ∃ t, exec (.utof rd ra) s = .next t ∧ Frame s t [rd] ∧
    (rd ≠ 0 → RoundsTo ((s.read ra).toNat : ℚ) (t.read rd) ∧ (s.read ra = 0#16 → t.read rd = 0#16)))

/-! ## The host -/

/-- R275, R276 (D37): load_program puts a word at its address and touches the program store only; load_data puts a
value into its RAM cell and touches RAM only, with no port effect; a map with a pair out of range is refused. -/
def Obligations.LoadersWriteTheirStores : Prop :=
  (∀ (s : State) (a w : Nat), a < 65536 → w < 2 ^ 22 →
    ∃ t, s.loadProgram [(a, w)] = .next t ∧ t = { s with rom := t.rom } ∧
      ∀ b, t.rom.get b = if b = a then some (BitVec.ofNat 22 w) else s.rom.get b) ∧
  (∀ (s : State) (l : List (Nat × Nat)) (p : Nat × Nat), p ∈ l → (65536 ≤ p.1 ∨ 2 ^ 22 ≤ p.2) →
    s.loadProgram l = .refused .programPairOutOfRange) ∧
  (∀ (s : State) (a v : Nat), Memory.wf s.ram = true → 0x100 ≤ a → a ≤ 0x1FF → v < 65536 →
    ∃ t, s.loadData [(a, v)] = .next t ∧ t = { s with ram := t.ram } ∧
      ∀ b, Memory.read t.ram b = if b = a then BitVec.ofNat 16 v else Memory.read s.ram b) ∧
  (∀ (s : State) (l : List (Nat × Nat)) (p : Nat × Nat), p ∈ l → (p.1 < 0x100 ∨ 0x1FF < p.1 ∨ 65536 ≤ p.2) →
    s.loadData l = .refused .dataPairOutOfRange)
end

