-- ==== Sys2Proof/Laws/Half.lean ====
section
/-! SUPPORT. The order of binary16 magnitudes and what rounding gives (41_fpu.md R150, R151). -/

namespace Sys2Proof.Machine

/-- The next magnitude is larger. -/
theorem magUnits_lt_succ (b : Nat) : magUnits b < magUnits (b + 1) := by
  have hp : ∀ e, 0 < 2 ^ e := fun e => Nat.two_pow_pos e
  unfold magUnits
  by_cases h0 : b / 1024 = 0
  · rw [if_pos h0]
    by_cases h1 : (b + 1) / 1024 = 0
    · rw [if_pos h1]; omega
    · have hb : b = 1023 := by omega
      subst hb; decide
  · have h1 : ¬ (b + 1) / 1024 = 0 := by omega
    rw [if_neg h0, if_neg h1]
    by_cases hc : (b + 1) / 1024 = b / 1024
    · rw [hc]
      exact Nat.mul_lt_mul_of_pos_right (by omega) (hp _)
    · have he : (b + 1) / 1024 - 1 = (b / 1024 - 1) + 1 := by omega
      rw [he, pow_succ]
      have := hp (b / 1024 - 1)
      have hr : b % 1024 = 1023 := by omega
      have hr' : (b + 1) % 1024 = 0 := by omega
      rw [hr, hr']; omega

/-- Magnitudes are ordered as their bits. -/
theorem magUnits_strictMono : StrictMono magUnits := strictMono_nat_of_lt_succ magUnits_lt_succ

/-- The bit search ends at the largest magnitude in its range that is at most `n / d`. -/
theorem floorMag_spec (n d : Nat) : ∀ (i b : Nat), magUnits b * d ≤ n →
    b ≤ floorMag n d i b ∧ floorMag n d i b < b + 2 ^ i ∧ magUnits (floorMag n d i b) * d ≤ n ∧
      (floorMag n d i b + 1 < b + 2 ^ i → n < magUnits (floorMag n d i b + 1) * d)
  | 0, b, h => by simp [floorMag, h]
  | i + 1, b, h => by
    have hp : 2 ^ (i + 1) = 2 ^ i + 2 ^ i := by rw [pow_succ]; omega
    simp only [floorMag]
    split
    · next hc =>
      obtain ⟨h1, h2, h3, h4⟩ := floorMag_spec n d i (b + 2 ^ i) hc
      exact ⟨by omega, by omega, h3, fun h => h4 (by omega)⟩
    · next hc =>
      obtain ⟨h1, h2, h3, h4⟩ := floorMag_spec n d i b h
      refine ⟨h1, by omega, h3, fun _ => ?_⟩
      by_cases he : floorMag n d i b + 1 < b + 2 ^ i
      · exact h4 he
      · have : floorMag n d i b + 1 = b + 2 ^ i := by omega
        rw [this]; omega

/-- How far `n / d` is from the magnitude of `b`, times `d`. -/
def magDistance (n d b : Nat) : Nat := (n - magUnits b * d) + (magUnits b * d - n)

/-- From 65520 on the result is the infinity. -/
theorem roundMag_overflow (n d : Nat) (h : 65520 * 2 ^ 24 * d ≤ n) : roundMag n d = 0x7C00 := by
  obtain ⟨-, h2, h3, h4⟩ := floorMag_spec n d 15 0 (by simp [magUnits])
  simp only [roundMag]
  split
  · rfl
  · next hb =>
    have hb' : floorMag n d 15 0 + 1 ≤ 0x7C00 := by omega
    have hlt := h4 (by omega)
    have hmono : magUnits (floorMag n d 15 0 + 1) ≤ magUnits 0x7C00 := magUnits_strictMono.monotone hb'
    have htop : magUnits 0x7C00 = 65536 * 2 ^ 24 := by decide
    have hmax : magUnits 0x7BFF = 65504 * 2 ^ 24 := by decide
    have he : floorMag n d 15 0 = 0x7BFF := by
      by_contra hne
      have : magUnits (floorMag n d 15 0 + 1) * d ≤ magUnits 0x7BFF * d :=
        Nat.mul_le_mul_right d (magUnits_strictMono.monotone (by omega))
      rw [hmax] at this
      omega
    rw [he] at h3 hlt ⊢
    simp only [htop, hmax] at h3 hlt ⊢
    split
    · omega
    · split
      · rfl
      · simp

/-- Below 65520 the result is finite, no magnitude is nearer, and of two nearest ones it is the even one. -/
theorem roundMag_nearest (n d : Nat) (hd : 0 < d) (h : n < 65520 * 2 ^ 24 * d) :
    roundMag n d < 0x7C00 ∧ ∀ c, magDistance n d (roundMag n d) ≤ magDistance n d c ∧
      (c ≠ roundMag n d → magDistance n d c = magDistance n d (roundMag n d) → roundMag n d % 2 = 0) := by
  obtain ⟨-, h2, h3, h4⟩ := floorMag_spec n d 15 0 (by simp [magUnits])
  have htop : magUnits 0x7C00 = 65536 * 2 ^ 24 := by decide
  have hmax : magUnits 0x7BFF = 65504 * 2 ^ 24 := by decide
  have hlow : floorMag n d 15 0 < 0x7C00 := by
    by_contra hne
    have : magUnits 0x7C00 * d ≤ magUnits (floorMag n d 15 0) * d :=
      Nat.mul_le_mul_right d (magUnits_strictMono.monotone (by omega))
    rw [htop] at this
    omega
  have hlt := h4 (by omega)
  have hend : floorMag n d 15 0 = 0x7BFF → 2 * n < (magUnits 0x7BFF + magUnits 0x7C00) * d := by
    intro _; rw [htop, hmax]; omega
  have hr : roundMag n d =
      if 2 * n < (magUnits (floorMag n d 15 0) + magUnits (floorMag n d 15 0 + 1)) * d then floorMag n d 15 0
      else if (magUnits (floorMag n d 15 0) + magUnits (floorMag n d 15 0 + 1)) * d < 2 * n then
        floorMag n d 15 0 + 1
      else if floorMag n d 15 0 % 2 = 0 then floorMag n d 15 0 else floorMag n d 15 0 + 1 := by
    simp only [roundMag]; rw [if_neg (by omega)]
  rw [hr]
  generalize floorMag n d 15 0 = b at *
  have hmid : (magUnits b + magUnits (b + 1)) * d = magUnits b * d + magUnits (b + 1) * d := Nat.add_mul _ _ _
  refine ⟨?_, fun c => ?_⟩
  · have : b ≠ 0x7BFF ∨ 2 * n < (magUnits b + magUnits (b + 1)) * d := by
      by_cases hb : b = 0x7BFF
      · right; subst hb; exact hend rfl
      · exact .inl hb
    repeat' split
    all_goals omega
  · have hcases : c = b ∨ c = b + 1 ∨ magUnits c * d < magUnits b * d ∨ magUnits (b + 1) * d < magUnits c * d := by
      rcases Nat.lt_trichotomy c b with hc | hc | hc
      · exact .inr (.inr (.inl (Nat.mul_lt_mul_of_pos_right (magUnits_strictMono hc) hd)))
      · exact .inl hc
      · rcases Nat.lt_or_ge (b + 1) c with hc' | hc'
        · exact .inr (.inr (.inr (Nat.mul_lt_mul_of_pos_right (magUnits_strictMono hc') hd)))
        · exact .inr (.inl (by omega))
    rw [hmid]
    unfold magDistance
    generalize hX : magUnits b * d = X at *
    generalize hY : magUnits (b + 1) * d = Y at *
    rcases hcases with rfl | rfl | hc | hc
    · rw [hX]; repeat' split
      all_goals (try rw [hX]); (try rw [hY]); omega
    · rw [hY]; repeat' split
      all_goals (try rw [hX]); (try rw [hY]); omega
    all_goals
      generalize magUnits c * d = Z at *
      repeat' split
      all_goals (try rw [hX]); (try rw [hY]); omega

end Sys2Proof.Machine
end

