-- ==== Sys2Proof/Laws/Memory.lean ====
section
/-! SUPPORT. The laws of sparse cells: reads after writes, and that every operation keeps the canonical form. -/

namespace Sys2Proof.Machine

/-- Every listed address lies above `k`. -/
abbrev Cells.above {α : Type} (m : Cells α) (k : Nat) : Prop := ∀ c ∈ m, k < c.1

theorem Cells.sorted_cons {α : Type} (k : Nat) (v : α) (m : Cells α) :
    Cells.sorted ((k, v) :: m) = true ↔ Cells.above m k ∧ Cells.sorted m = true := by
  induction m generalizing k v with
  | nil => simp [Cells.sorted, Cells.above]
  | cons c m ih =>
    obtain ⟨l, u⟩ := c
    have hs : Cells.sorted ((k, v) :: (l, u) :: m) = true ↔ k < l ∧ Cells.sorted ((l, u) :: m) = true := by
      simp [Cells.sorted]
    rw [hs]
    constructor
    · rintro ⟨hkl, h⟩
      refine ⟨fun c hc => ?_, h⟩
      rcases List.mem_cons.mp hc with rfl | hc
      · exact hkl
      · exact hkl.trans (((ih l u).mp h).1 c hc)
    · rintro ⟨ha, h⟩
      exact ⟨ha (l, u) (by simp), h⟩

theorem Cells.get_of_above {α : Type} (m : Cells α) (a : Nat) (h : Cells.above m a) : m.get a = none := by
  induction m with
  | nil => rfl
  | cons c m ih =>
    obtain ⟨k, v⟩ := c
    have hk : a < k := h (k, v) (by simp)
    simp only [Cells.get, if_neg (Nat.ne_of_lt hk)]
    exact ih fun c hc => h c (List.mem_cons_of_mem _ hc)

theorem Cells.mem_put {α : Type} (m : Cells α) (a : Nat) (v : α) (c : Nat × α) (h : c ∈ m.put a v) :
    c = (a, v) ∨ c ∈ m := by
  induction m with
  | nil => left; simpa [Cells.put] using h
  | cons d m ih =>
    obtain ⟨k, u⟩ := d
    simp only [Cells.put] at h
    split at h
    · exact (List.mem_cons.mp h).imp_right id
    · split at h
      · exact (List.mem_cons.mp h).imp_right (List.mem_cons_of_mem _)
      · rcases List.mem_cons.mp h with rfl | h
        · right; simp
        · exact (ih h).imp_right (List.mem_cons_of_mem _)

theorem Cells.mem_drop {α : Type} (m : Cells α) (a : Nat) (c : Nat × α) (h : c ∈ m.drop a) : c ∈ m := by
  induction m with
  | nil => simp [Cells.drop] at h
  | cons d m ih =>
    obtain ⟨k, u⟩ := d
    simp only [Cells.drop] at h
    split at h
    · exact List.mem_cons_of_mem _ h
    · rcases List.mem_cons.mp h with rfl | h
      · simp
      · exact List.mem_cons_of_mem _ (ih h)

/-- Listing a cell keeps the order. -/
theorem Cells.sorted_put {α : Type} (m : Cells α) (a : Nat) (v : α) (h : m.sorted = true) :
    (m.put a v).sorted = true := by
  induction m with
  | nil => rfl
  | cons c m ih =>
    obtain ⟨k, u⟩ := c
    have hm := (Cells.sorted_cons k u m).mp h
    simp only [Cells.put]
    split
    · next hk =>
      refine (Cells.sorted_cons a v _).mpr ⟨fun c hc => ?_, h⟩
      rcases List.mem_cons.mp hc with rfl | hc
      · exact hk
      · exact hk.trans (hm.1 c hc)
    · split
      · next hk => subst hk; exact (Cells.sorted_cons a v m).mpr hm
      · next h1 h2 =>
        refine (Cells.sorted_cons k u _).mpr ⟨fun c hc => ?_, ih hm.2⟩
        rcases Cells.mem_put m a v c hc with rfl | hc
        · exact lt_of_le_of_ne (Nat.le_of_not_lt h1) (Ne.symm h2)
        · exact hm.1 c hc

/-- Listing nothing keeps the order. -/
theorem Cells.sorted_drop {α : Type} (m : Cells α) (a : Nat) (h : m.sorted = true) : (m.drop a).sorted = true := by
  induction m with
  | nil => rfl
  | cons c m ih =>
    obtain ⟨k, u⟩ := c
    have hm := (Cells.sorted_cons k u m).mp h
    simp only [Cells.drop]
    split
    · exact hm.2
    · exact (Cells.sorted_cons k u _).mpr ⟨fun c hc => hm.1 c (Cells.mem_drop m a c hc), ih hm.2⟩

/-- What is listed after a listing. -/
theorem Cells.get_put {α : Type} (m : Cells α) (a b : Nat) (v : α) :
    (m.put a v).get b = if b = a then some v else m.get b := by
  induction m with
  | nil => simp [Cells.put, Cells.get]
  | cons c m ih =>
    obtain ⟨k, u⟩ := c
    simp only [Cells.put]
    split
    · simp [Cells.get]
    · split
      · next hk => subst hk; simp only [Cells.get]; split <;> rfl
      · next h1 h2 =>
        simp only [Cells.get, ih]
        by_cases hb : b = k
        · simp [hb, Ne.symm h2]
        · simp [hb]

/-- What is listed after listing nothing. -/
theorem Cells.get_drop {α : Type} (m : Cells α) (a b : Nat) (h : m.sorted = true) :
    (m.drop a).get b = if b = a then none else m.get b := by
  induction m with
  | nil => simp [Cells.drop, Cells.get]
  | cons c m ih =>
    obtain ⟨k, u⟩ := c
    have hm := (Cells.sorted_cons k u m).mp h
    simp only [Cells.drop]
    split
    · next hk =>
      subst hk
      by_cases hb : b = a
      · simp [hb, Cells.get_of_above m a hm.1]
      · simp [Cells.get, hb]
    · next hk =>
      simp only [Cells.get, ih hm.2]
      by_cases hb : b = k
      · simp [hb, Ne.symm hk]
      · simp [hb]

/-- A canonical RAM is sorted. -/
theorem Memory.sorted_of_wf {m : Cells Word} (h : Memory.wf m = true) : m.sorted = true := by
  simp only [Memory.wf, Bool.and_eq_true] at h
  exact h.1

/-- A read after a write: the written cell reads the value, every other cell as before. -/
theorem Memory.read_write (m : Cells Word) (a b : Nat) (v : Word) (h : Memory.wf m = true) :
    Memory.read (Memory.write m a v) b = if b = a then v else Memory.read m b := by
  unfold Memory.read Memory.write
  by_cases hv : v = Memory.unlisted
  · rw [if_pos hv, Cells.get_drop m a b (Memory.sorted_of_wf h)]
    split
    · simp [hv]
    · rfl
  · rw [if_neg hv, Cells.get_put]
    split <;> rfl

/-- A write inside RAM keeps the canonical form. -/
theorem Memory.write_wf (m : Cells Word) (a : Nat) (v : Word) (h : Memory.wf m = true)
    (ha : 0x0100 ≤ a ∧ a ≤ 0x01FF) : Memory.wf (Memory.write m a v) = true := by
  simp only [Memory.wf, Bool.and_eq_true, List.all_eq_true, decide_eq_true_eq] at h ⊢
  unfold Memory.write
  split
  · exact ⟨Cells.sorted_drop m a h.1, fun c hc => h.2 c (Cells.mem_drop m a c hc)⟩
  · next hv =>
    refine ⟨Cells.sorted_put m a v h.1, fun c hc => ?_⟩
    rcases Cells.mem_put m a v c hc with rfl | hc
    · exact ⟨ha.1, ha.2, hv⟩
    · exact h.2 c hc

/-- Loading a word at a 16-bit address keeps the canonical form of the program store. -/
theorem Store.put_wf (m : Cells InstrWord) (a : Nat) (w : InstrWord) (h : Store.wf m = true) (ha : a < 2 ^ 16) :
    Store.wf (m.put a w) = true := by
  simp only [Store.wf, Bool.and_eq_true, List.all_eq_true, decide_eq_true_eq] at h ⊢
  refine ⟨Cells.sorted_put m a w h.1, fun c hc => ?_⟩
  rcases Cells.mem_put m a w c hc with rfl | hc
  · exact ha
  · exact h.2 c hc

/-- RAM as a free value is in canonical form. -/
theorem freeRam_wf (n : Nat) : Memory.wf (freeRam n) = true := by
  unfold freeRam
  suffices h : ∀ (l : List (Fin 256 × Word)) (m : Cells Word), Memory.wf m = true →
      Memory.wf (l.foldl (fun m c => Memory.write m (0x0100 + c.1.val) c.2) m) = true from h _ _ rfl
  intro l
  induction l with
  | nil => exact fun _ h => h
  | cons c l ih => exact fun m h => ih _ (Memory.write_wf m _ c.2 h (by have := c.1.isLt; omega))

end Sys2Proof.Machine
end

