-- ==== Sys2Proof/Laws/State.lean ====
section
/-! SUPPORT. Every field after every named update of the state. -/

namespace Sys2Proof.Machine

/-! Register writes -/

@[simp] theorem State.write_running (s : State) (i : RegIdx) (v : Word) : (s.write i v).running = s.running := by
  unfold State.write; split <;> rfl
@[simp] theorem State.write_fault (s : State) (i : RegIdx) (v : Word) : (s.write i v).fault = s.fault := by
  unfold State.write; split <;> rfl
@[simp] theorem State.write_ram (s : State) (i : RegIdx) (v : Word) : (s.write i v).ram = s.ram := by
  unfold State.write; split <;> rfl
@[simp] theorem State.write_rom (s : State) (i : RegIdx) (v : Word) : (s.write i v).rom = s.rom := by
  unfold State.write; split <;> rfl
@[simp] theorem State.write_log (s : State) (i : RegIdx) (v : Word) : (s.write i v).log = s.log := by
  unfold State.write; split <;> rfl
@[simp] theorem State.write_cfg (s : State) (i : RegIdx) (v : Word) : (s.write i v).cfg = s.cfg := by
  unfold State.write; split <;> rfl
@[simp] theorem State.write_draws (s : State) (i : RegIdx) (v : Word) : (s.write i v).draws = s.draws := by
  unfold State.write; split <;> rfl
@[simp] theorem State.write_pcw (s : State) (i : RegIdx) (v : Word) :
    (s.write i v).pcw = (s.pcw || decide (i = 7)) := by
  unfold State.write
  split
  · next h => simp [h]
  · rfl
@[simp] theorem State.write_zero (s : State) (v : Word) : s.write 0 v = s := if_pos rfl
@[simp] theorem State.read_zero (s : State) : s.read 0 = 0#16 := if_pos rfl

/-- What a register reads after a register write. -/
theorem State.read_write (s : State) (i j : RegIdx) (v : Word) :
    (s.write i v).read j = if j = i ∧ j ≠ 0 then v else s.read j := by
  unfold State.write State.read
  by_cases hj : j = 0
  · simp [hj]
  · by_cases hi : i = 0
    · have : ¬ j = i := fun h => hj (h.trans hi)
      simp [hi, hj]
    · by_cases hij : j = i
      · subst hij; simp [hj]
      · have : i.val ≠ j.val := fun h => hij (Fin.ext h.symm)
        simp [hi, hj, hij, Vector.getElem_set_ne _ _ this]

/-- A register written reads what was written, but for register 0. -/
theorem State.read_write_self (s : State) (i : RegIdx) (v : Word) (h : i ≠ 0) : (s.write i v).read i = v := by
  simp [State.read_write, h]

/-- A register write leaves the other registers alone. -/
theorem State.read_write_ne (s : State) (i j : RegIdx) (v : Word) (h : j ≠ i) : (s.write i v).read j = s.read j := by
  simp [State.read_write, h]

/-- Slot 0 is never written. -/
@[simp] theorem State.write_slot_zero (s : State) (i : RegIdx) (v : Word) : (s.write i v).regs[0] = s.regs[0] := by
  unfold State.write
  split
  · rfl
  · next h =>
    have : i.val ≠ 0 := fun e => h (Fin.ext e)
    exact Vector.getElem_set_ne i.isLt (by decide) this

/-- A register reads its slot, but for register 0. -/
theorem State.read_congr {s t : State} (h : t.regs = s.regs) (i : RegIdx) : t.read i = s.read i := by
  unfold State.read; rw [h]

/-! Output, halt, free values and faults -/

@[simp] theorem State.output_regs (s : State) (k : OutputKind) (v : Word) : (s.output k v).regs = s.regs := rfl
@[simp] theorem State.output_pcw (s : State) (k : OutputKind) (v : Word) : (s.output k v).pcw = s.pcw := rfl
@[simp] theorem State.output_running (s : State) (k : OutputKind) (v : Word) : (s.output k v).running = s.running := rfl
@[simp] theorem State.output_fault (s : State) (k : OutputKind) (v : Word) : (s.output k v).fault = s.fault := rfl
@[simp] theorem State.output_ram (s : State) (k : OutputKind) (v : Word) : (s.output k v).ram = s.ram := rfl
@[simp] theorem State.output_rom (s : State) (k : OutputKind) (v : Word) : (s.output k v).rom = s.rom := rfl
@[simp] theorem State.output_log (s : State) (k : OutputKind) (v : Word) :
    (s.output k v).log = s.log ++ [⟨k, v⟩] := rfl
@[simp] theorem State.output_cfg (s : State) (k : OutputKind) (v : Word) : (s.output k v).cfg = s.cfg := rfl
@[simp] theorem State.output_draws (s : State) (k : OutputKind) (v : Word) : (s.output k v).draws = s.draws := rfl
@[simp] theorem State.output_read (s : State) (k : OutputKind) (v : Word) (i : RegIdx) :
    (s.output k v).read i = s.read i := rfl

@[simp] theorem State.halt_regs (s : State) : s.halt.regs = s.regs := rfl
@[simp] theorem State.halt_pcw (s : State) : s.halt.pcw = s.pcw := rfl
@[simp] theorem State.halt_running (s : State) : s.halt.running = false := rfl
@[simp] theorem State.halt_fault (s : State) : s.halt.fault = s.fault := rfl
@[simp] theorem State.halt_ram (s : State) : s.halt.ram = s.ram := rfl
@[simp] theorem State.halt_rom (s : State) : s.halt.rom = s.rom := rfl
@[simp] theorem State.halt_log (s : State) : s.halt.log = s.log := rfl
@[simp] theorem State.halt_cfg (s : State) : s.halt.cfg = s.cfg := rfl
@[simp] theorem State.halt_draws (s : State) : s.halt.draws = s.draws := rfl
@[simp] theorem State.halt_read (s : State) (i : RegIdx) : s.halt.read i = s.read i := rfl

@[simp] theorem State.raise_fault (s : State) (f : Fault) : (s.raise f).fault = some ⟨f, s.pc⟩ := by
  unfold State.raise; split <;> rfl
@[simp] theorem State.raise_pcw (s : State) (f : Fault) : (s.raise f).pcw = s.pcw := by
  unfold State.raise; split <;> rfl
@[simp] theorem State.raise_running (s : State) (f : Fault) : (s.raise f).running = s.running := by
  unfold State.raise; split <;> rfl
@[simp] theorem State.raise_rom (s : State) (f : Fault) : (s.raise f).rom = s.rom := by
  unfold State.raise; split <;> rfl
@[simp] theorem State.raise_cfg (s : State) (f : Fault) : (s.raise f).cfg = s.cfg := by
  unfold State.raise; split <;> rfl

/-! The end of a tick -/

@[simp] theorem State.advancePc_pcw (s : State) : s.advancePc.pcw = false := by
  unfold State.advancePc
  split
  · rfl
  · next h => simpa using h
@[simp] theorem State.advancePc_running (s : State) : s.advancePc.running = s.running := by
  unfold State.advancePc; split <;> rfl
@[simp] theorem State.advancePc_fault (s : State) : s.advancePc.fault = s.fault := by
  unfold State.advancePc; split <;> rfl
@[simp] theorem State.advancePc_ram (s : State) : s.advancePc.ram = s.ram := by
  unfold State.advancePc; split <;> rfl
@[simp] theorem State.advancePc_rom (s : State) : s.advancePc.rom = s.rom := by
  unfold State.advancePc; split <;> rfl
@[simp] theorem State.advancePc_log (s : State) : s.advancePc.log = s.log := by
  unfold State.advancePc; split <;> rfl
@[simp] theorem State.advancePc_cfg (s : State) : s.advancePc.cfg = s.cfg := by
  unfold State.advancePc; split <;> rfl
@[simp] theorem State.advancePc_draws (s : State) : s.advancePc.draws = s.draws := by
  unfold State.advancePc; split <;> rfl
@[simp] theorem State.advancePc_slot_zero (s : State) : s.advancePc.regs[0] = s.regs[0] := by
  unfold State.advancePc
  split
  · rfl
  · exact Vector.getElem_set_ne (by decide) (by decide) (by decide)

/-- What a register reads after `advance_pc`. -/
theorem State.read_advancePc (s : State) (i : RegIdx) :
    s.advancePc.read i = if i = 7 ∧ s.pcw = false then s.pc + 1#16 else s.read i := by
  unfold State.advancePc
  by_cases h : s.pcw
  · rw [if_pos h, if_neg (by simp [h])]; rfl
  · rw [if_neg h]
    by_cases hi : i = 7
    · subst hi; simp [State.read, h]
    · have : (7 : Nat) ≠ i.val := fun e => hi (Fin.ext e.symm)
      simp [State.read, hi, Vector.getElem_set_ne _ _ this]

end Sys2Proof.Machine
end

