-- ==== Sys2Proof/Laws/Ops.lean ====
section
/-! SUPPORT. One lemma per shared operation: what it can do. -/

namespace Sys2Proof

/-- A field as a number. -/
theorem field_toNat (w : InstrWord) (lo n : Nat) : (field w lo n).toNat = w.toNat / 2 ^ lo % 2 ^ n := by
  simp [field, BitVec.extractLsb'_toNat, Nat.shiftRight_eq_div_pow]

/-- A register field as a number. -/
theorem regField_val (w : InstrWord) (lo : Nat) : (regField w lo).val = w.toNat / 2 ^ lo % 16 := field_toNat w lo 4

end Sys2Proof

namespace Sys2Proof.Machine

/-- A store that completes does one of three things. -/
theorem State.memWrite_ok {s t : State} {a v : Word} (h : s.memWrite a v = .ok t) :
    t = s ∨ (a.toNat < 0x0100 ∧ ∃ k, t = s.output k v) ∨
      ((0x0100 ≤ a.toNat ∧ a.toNat ≤ 0x01FF) ∧ t = { s with ram := Memory.write s.ram a.toNat v }) := by
  unfold State.memWrite at h
  split at h
  · next ha =>
    unfold State.ioWrite at h
    split at h
    · left; exact (Except.ok.inj h).symm
    · right; left; exact ⟨ha, _, (Except.ok.inj h).symm⟩
    · right; left; exact ⟨ha, _, (Except.ok.inj h).symm⟩
    · cases h
  · next ha =>
    split at h
    · next hb => right; right; exact ⟨⟨by omega, hb⟩, (Except.ok.inj h).symm⟩
    · split at h
      · cases h
      · left; exact (Except.ok.inj h).symm

/-- A store that fails does so for one of two reasons. -/
theorem State.memWrite_error {s : State} {a v : Word} {f : Fault} (h : s.memWrite a v = .error f) :
    (a.toNat < 0x0100 ∧ f = .unimplementedPeripheral a .write) ∨
      (0x0200 ≤ a.toNat ∧ s.cfg.strictOob = true ∧ f = .outOfBounds a .write) := by
  unfold State.memWrite at h
  split at h
  · next ha =>
    unfold State.ioWrite at h
    split at h <;> cases h
    exact .inl ⟨ha, rfl⟩
  · split at h
    · cases h
    · next hb =>
      split at h
      · next hs => cases h; exact .inr ⟨by omega, hs, rfl⟩
      · cases h

/-- A load that fails does so for one of two reasons. -/
theorem State.memRead_error {s : State} {a : Word} {f : Fault} (h : s.memRead a = .error f) :
    (a.toNat < 0x0100 ∧ f = .unimplementedPeripheral a .read) ∨
      (0x0200 ≤ a.toNat ∧ s.cfg.strictOob = true ∧ f = .outOfBounds a .read) := by
  unfold State.memRead at h
  split at h
  · next ha =>
    unfold State.ioRead at h
    split at h <;> cases h <;> exact .inl ⟨ha, rfl⟩
  · split at h
    · cases h
    · next hb =>
      split at h
      · next hs => cases h; exact .inr ⟨by omega, hs, rfl⟩
      · cases h

/-- A load into a register completes exactly when its read does. -/
theorem State.loadInto_next {s t : State} {rd : RegIdx} {a : Word} :
    s.loadInto rd a = .next t ↔ ∃ v, s.memRead a = .ok v ∧ t = s.write rd v := by
  unfold State.loadInto
  split
  · next v h => simp [h, eq_comm]
  · next f h => simp [h]

/-- A load into a register faults exactly when its read does. -/
theorem State.loadInto_fault {s : State} {rd : RegIdx} {a : Word} {f : Fault} :
    s.loadInto rd a = .fault f ↔ s.memRead a = .error f := by
  unfold State.loadInto
  split
  · next v h => simp [h]
  · next g h => simp [h]

/-- A store completes exactly when its write does. -/
theorem State.storeAt_next {s t : State} {a v : Word} : s.storeAt a v = .next t ↔ s.memWrite a v = .ok t := by
  unfold State.storeAt
  split
  · next u h => simp [h]
  · next f h => simp [h]

/-- A store faults exactly when its write does. -/
theorem State.storeAt_fault {s : State} {a v : Word} {f : Fault} :
    s.storeAt a v = .fault f ↔ s.memWrite a v = .error f := by
  unfold State.storeAt
  split
  · next u h => simp [h]
  · next g h => simp [h]

/-- The start of push and call completes exactly when the store at SP does, and then increments SP. -/
theorem State.pushWord_ok {s t : State} {v : Word} :
    s.pushWord v = .ok t ↔ ∃ u, s.memWrite s.sp v = .ok u ∧ t = u.write 15 (s.sp + 1#16) := by
  unfold State.pushWord
  split
  · next u h => simp [h, eq_comm]
  · next f h => simp [h]

/-- The start of push and call fails exactly when the store at SP does. -/
theorem State.pushWord_error {s : State} {v : Word} {f : Fault} :
    s.pushWord v = .error f ↔ s.memWrite s.sp v = .error f := by
  unfold State.pushWord
  split
  · next u h => simp [h]
  · next g h => simp [h]

/-- What register `j` reads after the two writes of add and sub. -/
theorem State.read_writeAddSub (s : State) (rd j : RegIdx) (r f : Word) :
    (s.writeAddSub rd r f).read j =
      if j = 8 ∧ (rd ≠ 8 ∨ s.cfg.flDstOrder = .flagsLast) then f
      else if j = rd ∧ j ≠ 0 then r
      else s.read j := by
  unfold State.writeAddSub
  split
  · next h =>
    by_cases hj : j = 8
    · subst hj; simp [h, State.read_write]
    · simp [State.read_write, hj]
  · next h =>
    by_cases hj : j = 8
    · subst hj
      by_cases hr : rd = 8
      · subst hr; simp [h, State.read_write]
      · simp [h, State.read_write, hr, Ne.symm hr]
    · simp [State.read_write, hj]

/-- A branch either writes PC or does nothing. -/
theorem State.branchIf_cases (s : State) (c : Word → Word → Bool) (r1 r2 : RegIdx) (off8 : BitVec 8) :
    (c (s.read r1) (s.read r2) = true ∧ s.branchIf c r1 r2 off8 = s.write 7 (s.branchTarget off8)) ∨
      (c (s.read r1) (s.read r2) = false ∧ s.branchIf c r1 r2 off8 = s) := by
  unfold State.branchIf
  split
  · next h => exact .inl ⟨h, rfl⟩
  · next h => exact .inr ⟨by simpa using h, rfl⟩

/-- An FPU result is either a register write or a register write of the next free NaN. -/
theorem State.writeHalf_cases (s : State) (rd : RegIdx) (r : Option Word) :
    (∃ v, r = some v ∧ s.writeHalf rd r = s.write rd v) ∨
      (r = none ∧ s.writeHalf rd r = { s with draws := s.draws + 1 }.write rd (freeNan s.draws)) := by
  cases r with
  | some v => exact .inl ⟨v, rfl, rfl⟩
  | none => exact .inr ⟨rfl, rfl⟩

/-- What a tick can do. -/
theorem step_cases {s t : State} (h : step s = .next t) :
    ((s.fault.isSome = true ∨ s.running = false) ∧ t = s) ∨
    (s.fault = none ∧ s.running = true ∧
      ((∃ f, t = s.raise f ∧
          (s.fetch = .error f ∨
            ∃ w, s.fetch = .ok w ∧ ((∃ r, decode w = .error r ∧ f = .decodeError w) ∨
              ∃ i, decode w = .ok i ∧ exec i s = .fault f))) ∨
       ∃ w i u, s.fetch = .ok w ∧ decode w = .ok i ∧ exec i s = .next u ∧ t = u.finishTick)) := by
  unfold step at h
  split at h
  · next hs =>
    left
    cases h
    exact ⟨by simpa using hs, rfl⟩
  · next hs =>
    right
    simp only [Bool.or_eq_true, Bool.not_eq_true', not_or, Bool.not_eq_true, Option.isSome_eq_false_iff,
      Option.isNone_iff_eq_none, Bool.not_eq_false] at hs
    refine ⟨hs.1, hs.2, ?_⟩
    split at h
    · next f hf => cases h; exact .inl ⟨f, rfl, .inl hf⟩
    · next w hw =>
      split at h
      · next r hr => cases h; exact .inl ⟨_, rfl, .inr ⟨w, hw, .inl ⟨r, hr, rfl⟩⟩⟩
      · next i hi =>
        split at h
        · next u hu => cases h; exact .inr ⟨w, i, u, hw, hi, hu, rfl⟩
        · next f hf => cases h; exact .inl ⟨f, rfl, .inr ⟨w, hw, .inr ⟨i, hi, hf⟩⟩⟩
        · cases h

end Sys2Proof.Machine
end

