-- ==== Sys2Proof/Laws/PerInstr.lean ====
section
/-! SUPPORT. The word of every instruction against its row of spec/opcode_table.json: the row's fixed bits hold the
row's values and its fields hold the operands. -/

set_option Elab.async false

namespace Sys2Proof.Laws.TableRow

/-- Some bits of a row: the lowest bit, the number of bits, and what they hold. -/
structure RowBits where
  lo : Nat
  width : Nat
  value : Nat

/-- The fixed bits and then the fields of the instruction's row. -/
def rowBits : Instr → List RowBits
  | .nop => [⟨0, 22, 0⟩]
  | .jmp k16 => [⟨0, 4, 7⟩, ⟨20, 2, 0⟩, ⟨4, 16, k16.toNat⟩]
  | .mov rd k16 => [⟨20, 2, 0⟩, ⟨4, 16, k16.toNat⟩, ⟨0, 4, rd.val⟩]
  | .call k16 => [⟨0, 4, 7⟩, ⟨20, 2, 3⟩, ⟨4, 16, k16.toNat⟩]
  | .jge r1 r2 off8 =>
    [⟨12, 1, 0⟩, ⟨17, 5, 16⟩, ⟨13, 4, r2.val⟩, ⟨4, 8, off8.toNat⟩, ⟨0, 4, r1.val⟩]
  | .jl r1 r2 off8 =>
    [⟨12, 1, 0⟩, ⟨17, 5, 17⟩, ⟨13, 4, r2.val⟩, ⟨4, 8, off8.toNat⟩, ⟨0, 4, r1.val⟩]
  | .je r1 r2 off8 =>
    [⟨12, 1, 0⟩, ⟨17, 5, 18⟩, ⟨13, 4, r2.val⟩, ⟨4, 8, off8.toNat⟩, ⟨0, 4, r1.val⟩]
  | .jne r1 r2 off8 =>
    [⟨12, 1, 0⟩, ⟨17, 5, 19⟩, ⟨13, 4, r2.val⟩, ⟨4, 8, off8.toNat⟩, ⟨0, 4, r1.val⟩]
  | .jae r1 r2 off8 =>
    [⟨12, 1, 0⟩, ⟨17, 5, 20⟩, ⟨13, 4, r2.val⟩, ⟨4, 8, off8.toNat⟩, ⟨0, 4, r1.val⟩]
  | .jb r1 r2 off8 =>
    [⟨12, 1, 0⟩, ⟨17, 5, 21⟩, ⟨13, 4, r2.val⟩, ⟨4, 8, off8.toNat⟩, ⟨0, 4, r1.val⟩]
  | .ijne r1 r2 off8 =>
    [⟨12, 1, 0⟩, ⟨17, 5, 22⟩, ⟨13, 4, r2.val⟩, ⟨4, 8, off8.toNat⟩, ⟨0, 4, r1.val⟩]
  | .djge r1 r2 off8 =>
    [⟨12, 1, 0⟩, ⟨17, 5, 23⟩, ⟨13, 4, r2.val⟩, ⟨4, 8, off8.toNat⟩, ⟨0, 4, r1.val⟩]
  | .add rd ra rb =>
    [⟨8, 5, 0⟩, ⟨17, 5, 9⟩, ⟨13, 4, ra.val⟩, ⟨4, 4, rb.val⟩, ⟨0, 4, rd.val⟩]
  | .addi rd ra k8 =>
    [⟨12, 1, 1⟩, ⟨17, 5, 9⟩, ⟨13, 4, ra.val⟩, ⟨4, 8, k8.toNat⟩, ⟨0, 4, rd.val⟩]
  | .sub rd ra rb =>
    [⟨8, 5, 0⟩, ⟨17, 5, 10⟩, ⟨13, 4, ra.val⟩, ⟨4, 4, rb.val⟩, ⟨0, 4, rd.val⟩]
  | .subi rd ra k8 =>
    [⟨12, 1, 1⟩, ⟨17, 5, 10⟩, ⟨13, 4, ra.val⟩, ⟨4, 8, k8.toNat⟩, ⟨0, 4, rd.val⟩]
  | .asr rd ra rb =>
    [⟨8, 5, 0⟩, ⟨17, 5, 12⟩, ⟨13, 4, ra.val⟩, ⟨4, 4, rb.val⟩, ⟨0, 4, rd.val⟩]
  | .asri rd ra k8 =>
    [⟨12, 1, 1⟩, ⟨17, 5, 12⟩, ⟨13, 4, ra.val⟩, ⟨4, 8, k8.toNat⟩, ⟨0, 4, rd.val⟩]
  | .lsr rd ra rb =>
    [⟨8, 5, 0⟩, ⟨17, 5, 13⟩, ⟨13, 4, ra.val⟩, ⟨4, 4, rb.val⟩, ⟨0, 4, rd.val⟩]
  | .lsri rd ra k8 =>
    [⟨12, 1, 1⟩, ⟨17, 5, 13⟩, ⟨13, 4, ra.val⟩, ⟨4, 8, k8.toNat⟩, ⟨0, 4, rd.val⟩]
  | .lsl rd ra rb =>
    [⟨8, 5, 0⟩, ⟨17, 5, 14⟩, ⟨13, 4, ra.val⟩, ⟨4, 4, rb.val⟩, ⟨0, 4, rd.val⟩]
  | .lsli rd ra k8 =>
    [⟨12, 1, 1⟩, ⟨17, 5, 14⟩, ⟨13, 4, ra.val⟩, ⟨4, 8, k8.toNat⟩, ⟨0, 4, rd.val⟩]
  | .mul rd ra rb =>
    [⟨8, 5, 0⟩, ⟨17, 5, 15⟩, ⟨13, 4, ra.val⟩, ⟨4, 4, rb.val⟩, ⟨0, 4, rd.val⟩]
  | .muli rd ra k8 =>
    [⟨12, 1, 1⟩, ⟨17, 5, 15⟩, ⟨13, 4, ra.val⟩, ⟨4, 8, k8.toNat⟩, ⟨0, 4, rd.val⟩]
  | .or rd ra rb nA nB =>
    [⟨8, 1, 0⟩, ⟨11, 2, 0⟩, ⟨17, 5, 11⟩, ⟨13, 4, ra.val⟩, ⟨10, 1, nB.toNat⟩, ⟨9, 1, nA.toNat⟩, ⟨4, 4, rb.val⟩, ⟨0, 4, rd.val⟩]
  | .xor rd ra rb nA nB =>
    [⟨8, 1, 1⟩, ⟨11, 2, 0⟩, ⟨17, 5, 11⟩, ⟨13, 4, ra.val⟩, ⟨10, 1, nB.toNat⟩, ⟨9, 1, nA.toNat⟩, ⟨4, 4, rb.val⟩, ⟨0, 4, rd.val⟩]
  | .nor rd ra rb nA nB =>
    [⟨8, 1, 0⟩, ⟨11, 2, 1⟩, ⟨17, 5, 11⟩, ⟨13, 4, ra.val⟩, ⟨10, 1, nB.toNat⟩, ⟨9, 1, nA.toNat⟩, ⟨4, 4, rb.val⟩, ⟨0, 4, rd.val⟩]
  | .xnor rd ra rb nA nB =>
    [⟨8, 1, 1⟩, ⟨11, 2, 1⟩, ⟨17, 5, 11⟩, ⟨13, 4, ra.val⟩, ⟨10, 1, nB.toNat⟩, ⟨9, 1, nA.toNat⟩, ⟨4, 4, rb.val⟩, ⟨0, 4, rd.val⟩]
  | .push ra => [⟨0, 13, 0⟩, ⟨17, 5, 8⟩, ⟨13, 4, ra.val⟩]
  | .pop rd => [⟨4, 18, 65552⟩, ⟨0, 4, rd.val⟩]
  | .int n => [⟨4, 18, 65600⟩, ⟨0, 4, n.toNat⟩]
  | .hlt => [⟨0, 22, 1049600⟩]
  | .fadd rd ra rb =>
    [⟨8, 5, 8⟩, ⟨17, 5, 8⟩, ⟨13, 4, ra.val⟩, ⟨4, 4, rb.val⟩, ⟨0, 4, rd.val⟩]
  | .fsub rd ra rb =>
    [⟨8, 5, 9⟩, ⟨17, 5, 8⟩, ⟨13, 4, ra.val⟩, ⟨4, 4, rb.val⟩, ⟨0, 4, rd.val⟩]
  | .fmul rd ra rb =>
    [⟨8, 5, 10⟩, ⟨17, 5, 8⟩, ⟨13, 4, ra.val⟩, ⟨4, 4, rb.val⟩, ⟨0, 4, rd.val⟩]
  | .fdiv rd ra rb =>
    [⟨8, 5, 11⟩, ⟨17, 5, 8⟩, ⟨13, 4, ra.val⟩, ⟨4, 4, rb.val⟩, ⟨0, 4, rd.val⟩]
  | .ftoi rd ra => [⟨4, 9, 192⟩, ⟨17, 5, 8⟩, ⟨13, 4, ra.val⟩, ⟨0, 4, rd.val⟩]
  | .itof rd ra => [⟨4, 9, 208⟩, ⟨17, 5, 8⟩, ⟨13, 4, ra.val⟩, ⟨0, 4, rd.val⟩]
  | .utof rd ra => [⟨4, 9, 224⟩, ⟨17, 5, 8⟩, ⟨13, 4, ra.val⟩, ⟨0, 4, rd.val⟩]
  | .ldx rd rp sc off4 =>
    [⟨10, 3, 4⟩, ⟨17, 5, 8⟩, ⟨13, 4, rp.val⟩, ⟨8, 2, sc.toNat⟩, ⟨4, 4, off4.toNat⟩, ⟨0, 4, rd.val⟩]
  | .stx rs rp sc off4 =>
    [⟨10, 3, 5⟩, ⟨17, 5, 8⟩, ⟨13, 4, rp.val⟩, ⟨8, 2, sc.toNat⟩, ⟨4, 4, off4.toNat⟩, ⟨0, 4, rs.val⟩]
  | .ld rd rp off6 =>
    [⟨10, 3, 6⟩, ⟨17, 5, 8⟩, ⟨13, 4, rp.val⟩, ⟨4, 6, off6.toNat⟩, ⟨0, 4, rd.val⟩]
  | .st rs rp off6 =>
    [⟨10, 3, 7⟩, ⟨17, 5, 8⟩, ⟨13, 4, rp.val⟩, ⟨4, 6, off6.toNat⟩, ⟨0, 4, rs.val⟩]

/-- The encoded word holds the row's fixed values and the operands. -/
def Statement (i : Instr) : Prop := ∀ b ∈ rowBits i, (encode i).toNat / 2 ^ b.lo % 2 ^ b.width = b.value

theorem nop : Statement .nop := by
  simp [Statement, rowBits, encode]

theorem jmp (k16 : BitVec 16) : Statement (.jmp k16) := by
  simp [Statement, rowBits, encode, encodeImm]
  omega

theorem mov (rd : RegIdx) (k16 : BitVec 16) : Statement (.mov rd k16) := by
  simp [Statement, rowBits, encode, encodeImm]
  omega

theorem call (k16 : BitVec 16) : Statement (.call k16) := by
  simp [Statement, rowBits, encode, encodeImm]
  omega

theorem jge (r1 r2 : RegIdx) (off8 : BitVec 8) : Statement (.jge r1 r2 off8) := by
  simp [Statement, rowBits, encode, encodeBranch]
  omega

theorem jl (r1 r2 : RegIdx) (off8 : BitVec 8) : Statement (.jl r1 r2 off8) := by
  simp [Statement, rowBits, encode, encodeBranch]
  omega

theorem je (r1 r2 : RegIdx) (off8 : BitVec 8) : Statement (.je r1 r2 off8) := by
  simp [Statement, rowBits, encode, encodeBranch]
  omega

theorem jne (r1 r2 : RegIdx) (off8 : BitVec 8) : Statement (.jne r1 r2 off8) := by
  simp [Statement, rowBits, encode, encodeBranch]
  omega

theorem jae (r1 r2 : RegIdx) (off8 : BitVec 8) : Statement (.jae r1 r2 off8) := by
  simp [Statement, rowBits, encode, encodeBranch]
  omega

theorem jb (r1 r2 : RegIdx) (off8 : BitVec 8) : Statement (.jb r1 r2 off8) := by
  simp [Statement, rowBits, encode, encodeBranch]
  omega

theorem ijne (r1 r2 : RegIdx) (off8 : BitVec 8) : Statement (.ijne r1 r2 off8) := by
  simp [Statement, rowBits, encode, encodeBranch]
  omega

theorem djge (r1 r2 : RegIdx) (off8 : BitVec 8) : Statement (.djge r1 r2 off8) := by
  simp [Statement, rowBits, encode, encodeBranch]
  omega

theorem add (rd ra rb : RegIdx) : Statement (.add rd ra rb) := by
  simp [Statement, rowBits, encode, encodeAluReg]
  omega

theorem addi (rd ra : RegIdx) (k8 : BitVec 8) : Statement (.addi rd ra k8) := by
  simp [Statement, rowBits, encode, encodeAluImm]
  omega

theorem sub (rd ra rb : RegIdx) : Statement (.sub rd ra rb) := by
  simp [Statement, rowBits, encode, encodeAluReg]
  omega

theorem subi (rd ra : RegIdx) (k8 : BitVec 8) : Statement (.subi rd ra k8) := by
  simp [Statement, rowBits, encode, encodeAluImm]
  omega

theorem asr (rd ra rb : RegIdx) : Statement (.asr rd ra rb) := by
  simp [Statement, rowBits, encode, encodeAluReg]
  omega

theorem asri (rd ra : RegIdx) (k8 : BitVec 8) : Statement (.asri rd ra k8) := by
  simp [Statement, rowBits, encode, encodeAluImm]
  omega

theorem lsr (rd ra rb : RegIdx) : Statement (.lsr rd ra rb) := by
  simp [Statement, rowBits, encode, encodeAluReg]
  omega

theorem lsri (rd ra : RegIdx) (k8 : BitVec 8) : Statement (.lsri rd ra k8) := by
  simp [Statement, rowBits, encode, encodeAluImm]
  omega

theorem lsl (rd ra rb : RegIdx) : Statement (.lsl rd ra rb) := by
  simp [Statement, rowBits, encode, encodeAluReg]
  omega

theorem lsli (rd ra : RegIdx) (k8 : BitVec 8) : Statement (.lsli rd ra k8) := by
  simp [Statement, rowBits, encode, encodeAluImm]
  omega

theorem mul (rd ra rb : RegIdx) : Statement (.mul rd ra rb) := by
  simp [Statement, rowBits, encode, encodeAluReg]
  omega

theorem muli (rd ra : RegIdx) (k8 : BitVec 8) : Statement (.muli rd ra k8) := by
  simp [Statement, rowBits, encode, encodeAluImm]
  omega

theorem or (rd ra rb : RegIdx) (nA nB : Bool) : Statement (.or rd ra rb nA nB) := by
  cases nA <;> cases nB <;>
    simp [Statement, rowBits, encode, encodeAluShort] <;> omega

theorem xor (rd ra rb : RegIdx) (nA nB : Bool) : Statement (.xor rd ra rb nA nB) := by
  cases nA <;> cases nB <;>
    simp [Statement, rowBits, encode, encodeAluShort] <;> omega

theorem nor (rd ra rb : RegIdx) (nA nB : Bool) : Statement (.nor rd ra rb nA nB) := by
  cases nA <;> cases nB <;>
    simp [Statement, rowBits, encode, encodeAluShort] <;> omega

theorem xnor (rd ra rb : RegIdx) (nA nB : Bool) : Statement (.xnor rd ra rb nA nB) := by
  cases nA <;> cases nB <;>
    simp [Statement, rowBits, encode, encodeAluShort] <;> omega

theorem push (ra : RegIdx) : Statement (.push ra) := by
  simp [Statement, rowBits, encode, encodeMisc]
  omega

theorem pop (rd : RegIdx) : Statement (.pop rd) := by
  simp [Statement, rowBits, encode, encodeMisc]
  omega

theorem int (n : BitVec 4) : Statement (.int n) := by
  simp [Statement, rowBits, encode, encodeMisc]
  omega

theorem hlt : Statement .hlt := by
  simp [Statement, rowBits, encode]

theorem fadd (rd ra rb : RegIdx) : Statement (.fadd rd ra rb) := by
  simp [Statement, rowBits, encode, encodeMisc]
  omega

theorem fsub (rd ra rb : RegIdx) : Statement (.fsub rd ra rb) := by
  simp [Statement, rowBits, encode, encodeMisc]
  omega

theorem fmul (rd ra rb : RegIdx) : Statement (.fmul rd ra rb) := by
  simp [Statement, rowBits, encode, encodeMisc]
  omega

theorem fdiv (rd ra rb : RegIdx) : Statement (.fdiv rd ra rb) := by
  simp [Statement, rowBits, encode, encodeMisc]
  omega

theorem ftoi (rd ra : RegIdx) : Statement (.ftoi rd ra) := by
  simp [Statement, rowBits, encode, encodeMisc]
  omega

theorem itof (rd ra : RegIdx) : Statement (.itof rd ra) := by
  simp [Statement, rowBits, encode, encodeMisc]
  omega

theorem utof (rd ra : RegIdx) : Statement (.utof rd ra) := by
  simp [Statement, rowBits, encode, encodeMisc]
  omega

theorem ldx (rd rp : RegIdx) (sc : BitVec 2) (off4 : BitVec 4) : Statement (.ldx rd rp sc off4) := by
  simp [Statement, rowBits, encode, encodeScaled]
  omega

theorem stx (rs rp : RegIdx) (sc : BitVec 2) (off4 : BitVec 4) : Statement (.stx rs rp sc off4) := by
  simp [Statement, rowBits, encode, encodeScaled]
  omega

theorem ld (rd rp : RegIdx) (off6 : BitVec 6) : Statement (.ld rd rp off6) := by
  simp [Statement, rowBits, encode, encodeOffset]
  omega

theorem st (rs rp : RegIdx) (off6 : BitVec 6) : Statement (.st rs rp off6) := by
  simp [Statement, rowBits, encode, encodeOffset]
  omega

end Sys2Proof.Laws.TableRow
end

