-- ==== Sys2Proof/Tests/Slice0.lean ====
section
/-! SUPPORT. Tests on words and values of the spec (its rules' examples and 95_test_vectors.md), and for each
statement with hypotheses a witness that they can be met. -/

set_option Elab.async false

namespace Sys2Proof.Tests

open Sys2Proof.Machine Sys2Proof.Claims

/-! ## Ill-formed terms are refused (R93, R94, R101) -/

theorem test_mov_to_pc_is_ill_formed : (Instr.mov 7 2#16).wellFormed = false := by decide
theorem test_zero_mov_is_ill_formed : (Instr.mov 0 0#16).wellFormed = false := by decide
theorem test_int_zero_is_ill_formed : (Instr.int 0#4).wellFormed = false := by decide
theorem test_neighbours_are_well_formed :
    (Instr.mov 8 2#16).wellFormed = true ∧ (Instr.mov 0 1#16).wellFormed = true ∧
      (Instr.int 1#4).wellFormed = true := by decide

/-! ## Decoding, from the bit patterns of R101; the numbers are the words of the rules' examples -/

theorem test_decode_nop : decode (BitVec.ofNat 22 0b00_0000000000000000_0000) = .ok .nop ∧ encode .nop = 0x000000#22 := by decide
theorem test_decode_jmp : decode (BitVec.ofNat 22 0b00_0000000000000010_0111) = .ok (.jmp 2#16) ∧ encode (.jmp 2#16) = 0x000027#22 := by decide
theorem test_decode_mov : decode (BitVec.ofNat 22 0b00_0001001000110100_0011) = .ok (.mov 3 0x1234#16) ∧ encode (.mov 3 0x1234#16) = 0x012343#22 := by decide
theorem test_decode_call : decode (BitVec.ofNat 22 0b11_0000000000100000_0111) = .ok (.call 32#16) ∧ encode (.call 32#16) = 0x300207#22 := by decide
theorem test_decode_jge : decode (BitVec.ofNat 22 0b10_000_0011_0_00000100_0010) = .ok (.jge 2 3 4#8) ∧ encode (.jge 2 3 4#8) = 0x206042#22 := by decide
theorem test_decode_jl : decode (BitVec.ofNat 22 0b10_001_0011_0_00000100_0010) = .ok (.jl 2 3 4#8) ∧ encode (.jl 2 3 4#8) = 0x226042#22 := by decide
theorem test_decode_je : decode (BitVec.ofNat 22 0b10_010_0011_0_00000100_0010) = .ok (.je 2 3 4#8) ∧ encode (.je 2 3 4#8) = 0x246042#22 := by decide
theorem test_decode_jne : decode (BitVec.ofNat 22 0b10_011_0011_0_00000100_0010) = .ok (.jne 2 3 4#8) ∧ encode (.jne 2 3 4#8) = 0x266042#22 := by decide
theorem test_decode_jae : decode (BitVec.ofNat 22 0b10_100_0011_0_00000100_0010) = .ok (.jae 2 3 4#8) ∧ encode (.jae 2 3 4#8) = 0x286042#22 := by decide
theorem test_decode_jb : decode (BitVec.ofNat 22 0b10_101_0011_0_00000100_0010) = .ok (.jb 2 3 4#8) ∧ encode (.jb 2 3 4#8) = 0x2A6042#22 := by decide
theorem test_decode_ijne : decode (BitVec.ofNat 22 0b10_110_0011_0_11111110_0001) = .ok (.ijne 1 3 0xFE#8) ∧ encode (.ijne 1 3 0xFE#8) = 0x2C6FE1#22 := by decide
theorem test_decode_djge : decode (BitVec.ofNat 22 0b10_111_0000_0_11111101_0001) = .ok (.djge 1 0 0xFD#8) ∧ encode (.djge 1 0 0xFD#8) = 0x2E0FD1#22 := by decide
theorem test_decode_add : decode (BitVec.ofNat 22 0b01_001_0010_0_0000_0100_0011) = .ok (.add 3 2 4) ∧ encode (.add 3 2 4) = 0x124043#22 := by decide
theorem test_decode_addi : decode (BitVec.ofNat 22 0b01_001_0010_1_11111111_0011) = .ok (.addi 3 2 0xFF#8) ∧ encode (.addi 3 2 0xFF#8) = 0x125FF3#22 := by decide
theorem test_decode_sub : decode (BitVec.ofNat 22 0b01_010_0010_0_0000_0100_0011) = .ok (.sub 3 2 4) ∧ encode (.sub 3 2 4) = 0x144043#22 := by decide
theorem test_decode_subi : decode (BitVec.ofNat 22 0b01_010_0010_1_01111111_0011) = .ok (.subi 3 2 0x7F#8) ∧ encode (.subi 3 2 0x7F#8) = 0x1457F3#22 := by decide
theorem test_decode_asr : decode (BitVec.ofNat 22 0b01_100_0010_0_0000_0100_0011) = .ok (.asr 3 2 4) ∧ encode (.asr 3 2 4) = 0x184043#22 := by decide
theorem test_decode_asri : decode (BitVec.ofNat 22 0b01_100_0010_1_00000100_0011) = .ok (.asri 3 2 0x04#8) ∧ encode (.asri 3 2 0x04#8) = 0x185043#22 := by decide
theorem test_decode_lsr : decode (BitVec.ofNat 22 0b01_101_0010_0_0000_0100_0011) = .ok (.lsr 3 2 4) ∧ encode (.lsr 3 2 4) = 0x1A4043#22 := by decide
theorem test_decode_lsri : decode (BitVec.ofNat 22 0b01_101_0010_1_00000100_0011) = .ok (.lsri 3 2 0x04#8) ∧ encode (.lsri 3 2 0x04#8) = 0x1A5043#22 := by decide
theorem test_decode_lsl : decode (BitVec.ofNat 22 0b01_110_0010_0_0000_0100_0011) = .ok (.lsl 3 2 4) ∧ encode (.lsl 3 2 4) = 0x1C4043#22 := by decide
theorem test_decode_lsli : decode (BitVec.ofNat 22 0b01_110_0010_1_00000100_0011) = .ok (.lsli 3 2 0x04#8) ∧ encode (.lsli 3 2 0x04#8) = 0x1C5043#22 := by decide
theorem test_decode_mul : decode (BitVec.ofNat 22 0b01_111_0010_0_0000_0100_0011) = .ok (.mul 3 2 4) ∧ encode (.mul 3 2 4) = 0x1E4043#22 := by decide
theorem test_decode_muli : decode (BitVec.ofNat 22 0b01_111_0010_1_11111101_0011) = .ok (.muli 3 2 0xFD#8) ∧ encode (.muli 3 2 0xFD#8) = 0x1E5FD3#22 := by decide
theorem test_decode_or : decode (BitVec.ofNat 22 0b01_011_0010_0_0_0_1_0_0100_0011) = .ok (.or 3 2 4 true false) ∧ encode (.or 3 2 4 true false) = 0x164243#22 := by decide
theorem test_decode_xor : decode (BitVec.ofNat 22 0b01_011_0010_0_0_1_0_1_0100_0011) = .ok (.xor 3 2 4 false true) ∧ encode (.xor 3 2 4 false true) = 0x164543#22 := by decide
theorem test_decode_nor : decode (BitVec.ofNat 22 0b01_011_0010_0_1_1_1_0_0100_0011) = .ok (.nor 3 2 4 true true) ∧ encode (.nor 3 2 4 true true) = 0x164E43#22 := by decide
theorem test_decode_xnor : decode (BitVec.ofNat 22 0b01_011_0010_0_1_0_0_1_0100_0011) = .ok (.xnor 3 2 4 false false) ∧ encode (.xnor 3 2 4 false false) = 0x164943#22 := by decide
theorem test_decode_push : decode (BitVec.ofNat 22 0b01_000_0011_00000_0000_0000) = .ok (.push 3) ∧ encode (.push 3) = 0x106000#22 := by decide
theorem test_decode_pop : decode (BitVec.ofNat 22 0b01_000_0000_00001_0000_0011) = .ok (.pop 3) ∧ encode (.pop 3) = 0x100103#22 := by decide
theorem test_decode_int : decode (BitVec.ofNat 22 0b01_000_0000_00100_0000_0101) = .ok (.int 5#4) ∧ encode (.int 5#4) = 0x100405#22 := by decide
theorem test_decode_hlt : decode (BitVec.ofNat 22 0b01_000_0000_00100_0000_0000) = .ok .hlt ∧ encode .hlt = 0x100400#22 := by decide
theorem test_decode_fadd : decode (BitVec.ofNat 22 0b01_000_0010_01000_0100_0011) = .ok (.fadd 3 2 4) ∧ encode (.fadd 3 2 4) = 0x104843#22 := by decide
theorem test_decode_fsub : decode (BitVec.ofNat 22 0b01_000_0010_01001_0100_0011) = .ok (.fsub 3 2 4) ∧ encode (.fsub 3 2 4) = 0x104943#22 := by decide
theorem test_decode_fmul : decode (BitVec.ofNat 22 0b01_000_0010_01010_0100_0011) = .ok (.fmul 3 2 4) ∧ encode (.fmul 3 2 4) = 0x104A43#22 := by decide
theorem test_decode_fdiv : decode (BitVec.ofNat 22 0b01_000_0010_01011_0100_0011) = .ok (.fdiv 3 2 4) ∧ encode (.fdiv 3 2 4) = 0x104B43#22 := by decide
theorem test_decode_ftoi : decode (BitVec.ofNat 22 0b01_000_0010_01100_0000_0011) = .ok (.ftoi 3 2) ∧ encode (.ftoi 3 2) = 0x104C03#22 := by decide
theorem test_decode_itof : decode (BitVec.ofNat 22 0b01_000_0010_01101_0000_0011) = .ok (.itof 3 2) ∧ encode (.itof 3 2) = 0x104D03#22 := by decide
theorem test_decode_utof : decode (BitVec.ofNat 22 0b01_000_0010_01110_0000_0011) = .ok (.utof 3 2) ∧ encode (.utof 3 2) = 0x104E03#22 := by decide
theorem test_decode_ldx : decode (BitVec.ofNat 22 0b01_000_0010_100_10_0011_0011) = .ok (.ldx 3 2 2#2 3#4) ∧ encode (.ldx 3 2 2#2 3#4) = 0x105233#22 := by decide
theorem test_decode_stx : decode (BitVec.ofNat 22 0b01_000_0010_101_01_0001_0011) = .ok (.stx 3 2 1#2 1#4) ∧ encode (.stx 3 2 1#2 1#4) = 0x105513#22 := by decide
theorem test_decode_ld : decode (BitVec.ofNat 22 0b01_000_0010_110_000101_0011) = .ok (.ld 3 2 5#6) ∧ encode (.ld 3 2 5#6) = 0x105853#22 := by decide
theorem test_decode_st : decode (BitVec.ofNat 22 0b01_000_0010_111_111111_0011) = .ok (.st 3 2 63#6) ∧ encode (.st 3 2 63#6) = 0x105FF3#22 := by decide

/-! ## One tick on a small state -/

/-- The ports of the store rows of 95_test_vectors.md: 2 the display, 3 the debug channel, 0 and 4 null sinks. -/
def ports : Vector PortKind 32 :=
  Vector.ofFn fun p =>
    if p.val = 2 then .binaryDisplay else if p.val = 3 then .debug
    else if p.val = 0 ∨ p.val = 4 then .null else .unimplemented

/-- The configuration that the examples assume, unless they name another. -/
def cfg : Config where
  strictOob := false
  haltOnNop := false
  ovfMode := .unsigned
  flDstOrder := .flagsLast
  shiftWide := .saturate
  portKind := ports

def signedCfg : Config := { cfg with ovfMode := .signed }
def resultLastCfg : Config := { cfg with flDstOrder := .resultLast }
def mod16Cfg : Config := { cfg with shiftWide := .mod16 }
def strictCfg : Config := { cfg with strictOob := true }
def haltOnNopCfg : Config := { cfg with haltOnNop := true }

/-- A running core with the registers `r`, the RAM cells `m` and the word `w` at `pc`. -/
def machine (c : Config) (pc : Nat) (w : InstrWord) (r : List (RegIdx × Word)) (m : Cells Word) : State :=
  (r.foldl (fun (s : State) p => s.preset p.1 p.2) { State.reset with cfg := c, rom := [(pc, w)], ram := m }).preset 7
    (BitVec.ofNat 16 pc)

/-- The state after one tick. -/
def tick (s : State) : State :=
  match step s with
  | .next t => t
  | .fault _ => s
  | .refused _ => s

/-- The tick of `w` at 0 with x2 = `a` and x4 = `b`. -/
def run2 (c : Config) (w : InstrWord) (a b : Word) : State := tick (machine c 0 w [(2, a), (4, b)] [])

/-! add and sub: the rows of 95_test_vectors.md, FL in both overflow modes -/

theorem test_add_wraps : (run2 cfg 0x124043#22 0xFFFF#16 1#16).read 3 = 0#16 ∧
    (run2 cfg 0x124043#22 0xFFFF#16 1#16).read 8 = 0x000B#16 ∧
    (run2 signedCfg 0x124043#22 0xFFFF#16 1#16).read 8 = 0x0001#16 := by decide
theorem test_add_into_flags : (run2 cfg 0x124048#22 5#16 7#16).read 8 = 0#16 ∧
    (run2 resultLastCfg 0x124048#22 5#16 7#16).read 8 = 0x000C#16 := by decide
theorem test_addi_sign_extends : (run2 cfg 0x125FF3#22 5#16 0#16).read 3 = 4#16 ∧
    (run2 cfg 0x125FF3#22 5#16 0#16).read 8 = 0x000A#16 ∧
    (run2 signedCfg 0x125FF3#22 5#16 0#16).read 8 = 0#16 := by decide
theorem test_addi_to_pc : (tick (machine cfg 0 0x12F037#22 [] [])).read 7 = 3#16 := by decide
theorem test_sub_borrows : (run2 cfg 0x144043#22 5#16 7#16).read 3 = 0xFFFE#16 ∧
    (run2 cfg 0x144043#22 5#16 7#16).read 8 = 0x000E#16 ∧
    (run2 signedCfg 0x144043#22 5#16 7#16).read 8 = 0x0004#16 := by decide
theorem test_sub_into_flags : (run2 cfg 0x144048#22 5#16 5#16).read 8 = 1#16 ∧
    (run2 resultLastCfg 0x144048#22 5#16 5#16).read 8 = 0#16 := by decide
theorem test_subi_overflows_signed : (run2 signedCfg 0x145013#22 0x8000#16 0#16).read 3 = 0x7FFF#16 ∧
    (run2 signedCfg 0x145013#22 0x8000#16 0#16).read 8 = 0x000A#16 ∧
    (run2 cfg 0x145013#22 0x8000#16 0#16).read 8 = 0#16 := by decide
theorem test_subi_of_minus_one : (run2 cfg 0x145FF3#22 5#16 0#16).read 3 = 6#16 := by decide

/-! Shifts, on both sides of an amount of 16, in both modes -/

theorem test_asr : (run2 cfg 0x184043#22 0x8000#16 15#16).read 3 = 0xFFFF#16 ∧
    (run2 cfg 0x184043#22 0x7FFF#16 4#16).read 3 = 0x07FF#16 := by decide
theorem test_asr_wide : (run2 cfg 0x184043#22 0x8000#16 16#16).read 3 = 0xFFFF#16 ∧
    (run2 mod16Cfg 0x184043#22 0x8000#16 17#16).read 3 = 0xC000#16 := by decide
theorem test_asri : (run2 cfg 0x185043#22 0x8000#16 0#16).read 3 = 0xF800#16 ∧
    (run2 cfg 0x185FF3#22 0x8000#16 0#16).read 3 = 0xFFFF#16 := by decide
theorem test_lsr : (run2 cfg 0x1A4043#22 0x8001#16 15#16).read 3 = 1#16 ∧
    (run2 cfg 0x1A4043#22 0x8001#16 16#16).read 3 = 0#16 ∧
    (run2 mod16Cfg 0x1A4043#22 0x8001#16 17#16).read 3 = 0x4000#16 := by decide
theorem test_lsri : (run2 cfg 0x1A5043#22 0x8000#16 0#16).read 3 = 0x0800#16 ∧
    (run2 mod16Cfg 0x1A5F03#22 0x8000#16 0#16).read 3 = 0x8000#16 := by decide
theorem test_lsl : (run2 cfg 0x1C4043#22 1#16 15#16).read 3 = 0x8000#16 ∧
    (run2 cfg 0x1C4043#22 1#16 16#16).read 3 = 0#16 ∧
    (run2 mod16Cfg 0x1C4043#22 3#16 17#16).read 3 = 6#16 := by decide
theorem test_lsli : (run2 cfg 0x1C5043#22 1#16 0#16).read 3 = 0x10#16 ∧
    (run2 mod16Cfg 0x1C5FF3#22 1#16 0#16).read 3 = 0x8000#16 := by decide

/-! Multiply and the bitwise family -/

theorem test_mul : (run2 cfg 0x1E4043#22 0x012C#16 0x012C#16).read 3 = 0x5F90#16 ∧
    (run2 cfg 0x1E4043#22 0x012C#16 0x012C#16).read 8 = 0#16 := by decide
theorem test_muli : (run2 cfg 0x1E5FD3#22 7#16 0#16).read 3 = 0xFFEB#16 := by decide
theorem test_or : (run2 cfg 0x164043#22 0x0F0F#16 0x00FF#16).read 3 = 0x0FFF#16 ∧
    (run2 cfg 0x164243#22 0x0F0F#16 0x00FF#16).read 3 = 0xF0FF#16 ∧
    (run2 cfg 0x164443#22 0x0F0F#16 0x00FF#16).read 3 = 0xFF0F#16 := by decide
theorem test_or_to_pc : (run2 cfg 0x164007#22 0x40#16 0#16).read 7 = 0x40#16 := by decide
theorem test_xor : (run2 cfg 0x164143#22 0x0F0F#16 0x00FF#16).read 3 = 0x0FF0#16 ∧
    (run2 cfg 0x164343#22 0x0F0F#16 0x00FF#16).read 3 = 0xF00F#16 := by decide
theorem test_nor : (run2 cfg 0x164843#22 0x0F0F#16 0x00FF#16).read 3 = 0xF000#16 ∧
    (run2 cfg 0x164E43#22 0x0F0F#16 0x00FF#16).read 3 = 0x000F#16 := by decide
theorem test_xnor : (run2 cfg 0x164943#22 0x0F0F#16 0x00FF#16).read 3 = 0xF00F#16 ∧
    (run2 cfg 0x164D43#22 0x0F0F#16 0x00FF#16).read 3 = 0x0FF0#16 := by decide

/-! Binary16 -/

theorem test_fadd : (run2 cfg 0x104843#22 0x6800#16 0x3C00#16).read 3 = 0x6800#16 ∧
    (run2 cfg 0x104843#22 0x6800#16 0x3E00#16).read 3 = 0x6801#16 ∧
    (run2 cfg 0x104843#22 0x03FF#16 0x0001#16).read 3 = 0x0400#16 := by decide
theorem test_fadd_limits : (run2 cfg 0x104843#22 0x7BFF#16 0x7BFF#16).read 3 = 0x7C00#16 ∧
    (run2 cfg 0x104843#22 0x8000#16 0x8000#16).read 3 = 0x8000#16 ∧
    (run2 cfg 0x104843#22 0x7C00#16 0xFC00#16).draws = 1 := by decide
theorem test_fsub : (run2 cfg 0x104943#22 0x4200#16 0x3C00#16).read 3 = 0x4000#16 ∧
    (run2 cfg 0x104943#22 0x8000#16 0x0000#16).read 3 = 0x8000#16 := by decide
theorem test_fmul : (run2 cfg 0x104A43#22 0x5BFF#16 0x5BFF#16).read 3 = 0x7BFE#16 ∧
    (run2 cfg 0x104A43#22 0x0001#16 0x3800#16).read 3 = 0#16 := by decide
theorem test_fmul_signs : (run2 cfg 0x104A43#22 0x7C00#16 0xC000#16).read 3 = 0xFC00#16 ∧
    (run2 cfg 0x104A43#22 0x8000#16 0x3C00#16).read 3 = 0x8000#16 := by decide
theorem test_fdiv : (run2 cfg 0x104B43#22 0x3C00#16 0x4200#16).read 3 = 0x3555#16 ∧
    (run2 cfg 0x104B43#22 0x4500#16 0x4000#16).read 3 = 0x4100#16 := by decide
theorem test_fdiv_by_zero : (run2 cfg 0x104B43#22 0xBC00#16 0#16).read 3 = 0xFC00#16 ∧
    (run2 cfg 0x104B43#22 0x3C00#16 0x7C00#16).read 3 = 0#16 ∧
    (run2 cfg 0x104B43#22 0#16 0#16).draws = 1 := by decide
theorem test_ftoi : (run2 cfg 0x104C03#22 0xC248#16 0#16).read 3 = 0xFFFD#16 ∧
    (run2 cfg 0x104C03#22 0xFBFF#16 0#16).read 3 = 0x0020#16 := by decide
theorem test_ftoi_of_infinity :
    (run2 cfg 0x104C03#22 0x7C00#16 0#16).fault = some ⟨.floatConversionFault 0x7C00#16, 0#16⟩ := by decide
theorem test_itof : (run2 cfg 0x104D03#22 0xFFFF#16 0#16).read 3 = 0xBC00#16 ∧
    (run2 cfg 0x104D03#22 0x7FFF#16 0#16).read 3 = 0x7800#16 ∧
    (run2 cfg 0x104D03#22 0x0803#16 0#16).read 3 = 0x6802#16 := by decide
theorem test_utof : (run2 cfg 0x104E03#22 0xFFEF#16 0#16).read 3 = 0x7BFF#16 ∧
    (run2 cfg 0x104E03#22 0xFFF0#16 0#16).read 3 = 0x7C00#16 := by decide

/-! Moves, loads and stores -/

theorem test_mov : (tick (machine cfg 0 0x012343#22 [] [])).read 3 = 0x1234#16 ∧
    (tick (machine cfg 0 0x000F08#22 [] [])).read 8 = 0x00F0#16 := by decide
theorem test_ldx : (tick (machine cfg 0 0x105233#22 [(2, 0x100#16), (1, 5#16)] [(0x117, 0xBEEF#16)])).read 3 =
    0xBEEF#16 := by decide
theorem test_ldx_address_wraps :
    (tick (machine cfg 0 0x105003#22 [(2, 0x100#16), (1, 0xFFFF#16)] [])).fault =
      some ⟨.unimplementedPeripheral 0x00FF#16 .read, 0#16⟩ := by decide
theorem test_stx : (tick (machine cfg 3 0x105513#22 [(2, 0x100#16), (1, 4#16), (3, 0x55#16)] [])).ram =
    [(0x109, 0x55#16)] := by decide
theorem test_ld : (tick (machine cfg 0 0x105853#22 [(2, 0x104#16)] [(0x109, 0x3333#16)])).read 3 = 0x3333#16 := by
  decide
theorem test_ld_strict : (tick (machine strictCfg 5 0x105813#22 [(2, 0x1FF#16)] [])).fault =
    some ⟨.outOfBounds 0x0200#16 .read, 5#16⟩ := by decide
theorem test_st : (tick (machine cfg 3 0x105FF3#22 [(2, 0x01C0#16), (3, 7#16)] [])).ram = [(0x1FF, 7#16)] := by decide
theorem test_st_to_ports : (tick (machine cfg 3 0x101C23#22 [(3, 0xAB#16)] [])).log = [⟨.binaryDisplay, 0xAB#16⟩] ∧
    (tick (machine cfg 3 0x101C33#22 [(3, 0xAB#16)] [])).log = [⟨.debug, 0xAB#16⟩] ∧
    (tick (machine cfg 3 0x101C53#22 [(3, 0xAB#16)] [])).fault =
      some ⟨.unimplementedPeripheral 5#16 .write, 3#16⟩ := by decide

/-! Stack, jump and call -/

theorem test_push_sp : (tick (machine cfg 3 0x11E000#22 [(15, 0x100#16)] [])).ram = [(0x100, 0x100#16)] ∧
    (tick (machine cfg 3 0x11E000#22 [(15, 0x100#16)] [])).read 15 = 0x101#16 := by decide
theorem test_push_beyond_ram : (tick (machine cfg 3 0x106000#22 [(15, 0x200#16), (3, 9#16)] [])).ram = [] ∧
    (tick (machine cfg 3 0x106000#22 [(15, 0x200#16), (3, 9#16)] [])).read 15 = 0x201#16 := by decide
theorem test_pop : (tick (machine cfg 3 0x100103#22 [(15, 0x101#16)] [(0x100, 0x77#16)])).read 3 = 0x77#16 ∧
    (tick (machine cfg 3 0x100103#22 [(15, 0x101#16)] [(0x100, 0x77#16)])).read 15 = 0x100#16 := by decide
theorem test_pop_sp :
    (tick (machine cfg 3 0x10010F#22 [(15, 0x101#16)] [(0x100, 0x150#16)])).read 15 = 0x150#16 := by decide
theorem test_jmp : (tick (machine cfg 9 0x000027#22 [] [])).read 7 = 2#16 := by decide
theorem test_call : (tick (machine cfg 1 0x300207#22 [(15, 0x100#16)] [])).ram = [(0x100, 2#16)] ∧
    (tick (machine cfg 1 0x300207#22 [(15, 0x100#16)] [])).read 15 = 0x101#16 ∧
    (tick (machine cfg 1 0x300207#22 [(15, 0x100#16)] [])).read 7 = 32#16 := by decide

/-! Branches: the table of R215, x2 and x3 given, at PC = 10 -/

/-- PC after the tick of the branch `w` at 10. -/
def branchPc (w : InstrWord) (a b : Word) : Word := (tick (machine cfg 10 w [(2, a), (3, b)] [])).read 7

theorem test_jge : branchPc 0x206042#22 0x7FFF#16 0x8000#16 = 14#16 ∧
    branchPc 0x206042#22 0xFFFF#16 1#16 = 11#16 := by decide
theorem test_jl : branchPc 0x226042#22 0xFFFF#16 1#16 = 14#16 ∧
    branchPc 0x226042#22 5#16 5#16 = 11#16 := by decide
theorem test_je : branchPc 0x246042#22 5#16 5#16 = 14#16 ∧ branchPc 0x246042#22 0xFFFF#16 1#16 = 11#16 := by decide
theorem test_je_backward : branchPc 0x240800#22 0#16 0#16 = 0xFF8A#16 := by decide
theorem test_jne : branchPc 0x266042#22 5#16 5#16 = 11#16 ∧ branchPc 0x266042#22 1#16 0xFFFF#16 = 14#16 := by decide
theorem test_jae : branchPc 0x286042#22 0xFFFF#16 1#16 = 14#16 ∧
    branchPc 0x286042#22 0x7FFF#16 0x8000#16 = 11#16 := by decide
theorem test_jb : branchPc 0x2A6042#22 1#16 0xFFFF#16 = 14#16 ∧
    branchPc 0x2A6042#22 5#16 5#16 = 11#16 := by decide
theorem test_ijne : (tick (machine cfg 10 0x2C6FE1#22 [(1, 2#16), (3, 4#16)] [])).read 7 = 8#16 ∧
    (tick (machine cfg 10 0x2C6FE1#22 [(1, 3#16), (3, 4#16)] [])).read 7 = 11#16 := by decide
theorem test_djge : (tick (machine cfg 10 0x2E0FD1#22 [(1, 1#16)] [])).read 7 = 7#16 ∧
    (tick (machine cfg 10 0x2E0FD1#22 [(1, 0#16)] [])).read 7 = 11#16 ∧
    (tick (machine cfg 10 0x2E0FD1#22 [(1, 0#16)] [])).read 1 = 0xFFFF#16 := by decide

/-! nop, int, hlt and the errors of fetch and decode -/

theorem test_nop : (tick (machine cfg 0 0x000000#22 [] [])).read 7 = 1#16 ∧
    (tick (machine haltOnNopCfg 0 0x000000#22 [] [])).read 7 = 0#16 ∧
    (tick (machine haltOnNopCfg 0 0x000000#22 [] [])).running = false := by decide
theorem test_int : (tick (machine cfg 0 0x100405#22 [] [])).read 7 = 1#16 ∧
    (tick (machine cfg 0 0x100405#22 [] [])).running = true := by decide
theorem test_hlt : (tick (machine cfg 8 0x100400#22 [] [])).read 7 = 8#16 ∧
    (tick (machine cfg 8 0x100400#22 [] [])).running = false := by decide
theorem test_decode_error_leaves_state : tick (machine cfg 2 0x100200#22 [(3, 9#16)] []) =
    { machine cfg 2 0x100200#22 [(3, 9#16)] [] with
      fault := some ⟨.decodeError 0x100200#22, 2#16⟩ } := by decide
theorem test_fetch_fault : (tick (tick (machine cfg 0 0x000000#22 [] []))).fault =
    some ⟨.fetchFault 1#16, 1#16⟩ := by decide

/-! ## Witnesses: the hypotheses of each statement are met, each clause at a boundary value -/

/-- A state to which the witnesses give registers and RAM cells. -/
def at0 (c : Config) (r : List (RegIdx × Word)) (m : Cells Word) : State := machine c 0 0#22 r m

theorem witness_decodeOfEncode : (Instr.mov 0 1#16).wellFormed = true ∧ (Instr.mov 8 0xFFFF#16).wellFormed = true ∧
    (Instr.int 15#4).wellFormed = true ∧ (Instr.xnor 15 7 0 true true).wellFormed = true := by decide

theorem witness_encodeOfDecode : decode 0x3FFFF7#22 = .ok (.call 0xFFFF#16) ∧
    decode 0x2FEFFF#22 = .ok (.djge 15 15 0xFF#8) ∧ decode 0x11FFFF#22 = .ok (.st 15 15 63#6) := by decide

/-- The rows of 95_test_vectors.md that raise DecodeError, one for each clause, and their neighbours. -/
theorem witness_reservedWordsRejected :
    decode 0x3FFFFF#22 = .error .callDst ∧ decode 0x2FFFEF#22 = .error .branchPad ∧
    decode 0x124143#22 = .error .aluLongOperand ∧ decode 0x165043#22 = .error .aluShortFlag ∧
    decode 0x100200#22 = .error .miscSubop ∧ decode 0x100700#22 = .error .miscSubop ∧
    decode 0x100F00#22 = .error .miscSubop ∧ decode 0x106003#22 = .error .miscField ∧
    decode 0x106010#22 = .error .miscField ∧ decode 0x102103#22 = .error .miscField ∧
    decode 0x100413#22 = .error .miscField ∧ decode 0x104C13#22 = .error .miscField ∧
    decode 0x104843#22 = .ok (.fadd 3 2 4) ∧ decode 0x1057F3#22 = .ok (.stx 3 2 3#2 15#4) := by decide

/-- A tick whose instruction completes, and one whose instruction raises an error. -/
theorem witness_stepRunsDecodedInstruction :
    (let s := machine cfg 0xFFFF 0x124043#22 [] []
     Running s ∧ s.rom.get (s.read 7).toNat = some 0x124043#22 ∧ decode 0x124043#22 = .ok (.add 3 2 4) ∧
       execAdd 3 2 4 s = .next (s.addInto 3 0#16 0#16)) ∧
    (let s := machine cfg 0 0x104C03#22 [(2, 0x7C00#16)] []
     Running s ∧ s.rom.get (s.read 7).toNat = some 0x104C03#22 ∧ decode 0x104C03#22 = .ok (.ftoi 3 2) ∧
       exec (.ftoi 3 2) s = .fault (.floatConversionFault 0x7C00#16)) := by
  refine ⟨⟨by decide, by decide, by decide, rfl⟩, ⟨by decide, by decide, by decide, rfl⟩⟩

/-- With `pcw` set, and clear at the highest address. -/
theorem witness_pcAdvancesUnlessWritten :
    (let s := machine cfg 0 0x000027#22 [] []
     Running s ∧ s.rom.get (s.read 7).toNat = some 0x000027#22 ∧ decode 0x000027#22 = .ok (.jmp 2#16) ∧
       exec (.jmp 2#16) s = .next (s.write 7 2#16) ∧ (s.write 7 2#16).running = true ∧
       (s.write 7 2#16).pcw = true) ∧
    (let s := machine cfg 0xFFFF 0x100405#22 [] []
     Running s ∧ s.rom.get (s.read 7).toNat = some 0x100405#22 ∧ decode 0x100405#22 = .ok (.int 5#4) ∧
       exec (.int 5#4) s = .next s ∧ s.pcw = false ∧ (tick s).read 7 = 0#16) := by
  refine ⟨⟨by decide, by decide, by decide, rfl, by decide, by decide⟩,
    ⟨by decide, by decide, by decide, rfl, by decide, by decide⟩⟩

theorem witness_haltingTickParksPc :
    let s := machine haltOnNopCfg 0xFFFF 0#22 [] []
    Running s ∧ s.rom.get (s.read 7).toNat = some 0#22 ∧ decode 0#22 = .ok .nop ∧ exec .nop s = .next s.halt ∧
      s.halt.running = false := by
  refine ⟨by decide, by decide, by decide, rfl, by decide⟩

theorem witness_stoppedCoreStaysUnchanged :
    (tick (machine cfg 0 0x100400#22 [] [])).running = false ∧
    (tick (machine cfg 0 0x100200#22 [] [])).fault.isSome = true := by decide

theorem witness_unloadedFetchFaults : Running State.reset ∧ State.reset.rom.get (State.reset.read 7).toNat = none := by
  decide

theorem witness_undecodableWordFaults :
    let s := machine cfg 0 0x3FFFFF#22 [] []
    Running s ∧ s.rom.get (s.read 7).toNat = some 0x3FFFFF#22 ∧ decode 0x3FFFFF#22 = .error .callDst := by decide

theorem witness_executeErrorIsRecorded :
    let s := machine strictCfg 0 0x105C03#22 [(2, 0x200#16)] []
    Running s ∧ s.rom.get (s.read 7).toNat = some 0x105C03#22 ∧ decode 0x105C03#22 = .ok (.st 3 2 0#6) ∧
      exec (.st 3 2 0#6) s = .fault (.outOfBounds 0x200#16 .write) := by
  refine ⟨by decide, by decide, by decide, rfl⟩

/-- A port table with one display slot and one debug slot, RAM cells at both ends, a tick that stores. -/
theorem witness_everyTickKeepsInvariant :
    let s := machine cfg 3 0x105FF3#22 [(2, 0x01C0#16), (3, 7#16)] [(0x100, 1#16), (0x1FF, 2#16)]
    s.inv = true ∧ step s = .next (tick s) := by
  refine ⟨by decide +kernel, rfl⟩

theorem witness_ticksNeverLoadProgram : step State.reset = .next (State.reset.raise (.fetchFault 0#16)) := rfl

theorem witness_runningClearedOnlyByHalt :
    (let s := at0 cfg [] []
     exec (.int 0#4) s = .next s.halt ∧ s.running = true ∧ s.halt.running = false) ∧
    (let s := at0 haltOnNopCfg [] []
     exec .nop s = .next s.halt ∧ s.running = true ∧ s.halt.running = false) ∧
    (let s := at0 cfg [] []
     exec (.int 1#4) s = .next s ∧ step s = .next (tick s) ∧ (tick s).running = true) := by
  refine ⟨⟨rfl, by decide, by decide⟩, ⟨rfl, by decide, by decide⟩, rfl, rfl, by decide⟩

theorem witness_pcChangesOnlyWithPcw :
    let s := at0 cfg [(6, 1#16)] []
    exec (.mul 6 6 6) s = .next (s.write 6 1#16) ∧ (s.write 6 1#16).pcw = false := by
  refine ⟨rfl, by decide⟩

theorem witness_flagsOnlyFromAddAndSub :
    let s := at0 cfg [(8, 5#16)] []
    exec (.mov 9 0xFFFF#16) s = .next (s.write 9 0xFFFF#16) ∧ isAddSub (.mov 9 0xFFFF#16) = false ∧
      destOf (.mov 9 0xFFFF#16) ≠ some 8 := by
  refine ⟨rfl, by decide, by decide⟩

theorem witness_onlyStoresChangeMemory :
    let s := at0 cfg [(8, 5#16)] [(0x100, 1#16)]
    exec (.pop 8) s = .next ((s.write 15 0xFFFF#16).write 8 0#16) ∧ isStore (.pop 8) = false := by
  refine ⟨rfl, by decide⟩

theorem witness_logGrowsByAtMostOne :
    let s := at0 cfg [(3, 0xAB#16)] []
    exec (.st 3 0 2#6) s = .next (s.output .binaryDisplay 0xAB#16) := rfl

/-- A load, a store and ftoi that fail. -/
theorem witness_errorsComeFromTheirRaisers :
    exec (.pop 3) (at0 strictCfg [] []) = .fault (.outOfBounds 0xFFFF#16 .read) ∧
    exec (.call 9#16) (at0 cfg [(15, 0xFF#16)] []) = .fault (.unimplementedPeripheral 0xFF#16 .write) ∧
    exec (.ftoi 3 2) (at0 cfg [(2, 0xFC00#16)] []) = .fault (.floatConversionFault 0xFC00#16) := by
  refine ⟨rfl, rfl, rfl⟩

theorem witness_registerZeroAndPcWrites :
    let s := at0 cfg [] []
    (s.write 0 5#16).read 0 = 0#16 ∧ (s.write 7 0#16).pcw = true ∧ (s.write 6 5#16).pcw = false ∧
      (s.write 8 5#16).pcw = false ∧ (s.write 15 5#16).read 15 = 5#16 ∧ (s.write 15 5#16).read 1 = 0#16 := by decide

/-- Both ends of RAM. -/
theorem witness_ramRoundTrip :
    Memory.wf (at0 cfg [] [(0x100, 1#16), (0x1FF, 2#16)]).ram = true ∧
    0x100 ≤ (0x100#16).toNat ∧ (0x100#16).toNat ≤ 0x1FF ∧ 0x100 ≤ (0x1FF#16).toNat ∧ (0x1FF#16).toNat ≤ 0x1FF := by
  decide

theorem witness_outOfBoundsPolicy :
    0x200 ≤ (0x200#16).toNat ∧ 0x200 ≤ (0xFFFF#16).toNat ∧ cfg.strictOob = false ∧ strictCfg.strictOob = true := by
  decide

/-- A slot of each kind. -/
theorem witness_portStores :
    cfg.portKind[0] = .null ∧ cfg.portKind[2] = .binaryDisplay ∧ cfg.portKind[3] = .debug ∧
      cfg.portKind[31] = .unimplemented := by decide

/-- Both ends of the hole. -/
theorem witness_portLoadsAndHole :
    0x20 ≤ (0x20#16).toNat ∧ (0x20#16).toNat < 0x100 ∧ 0x20 ≤ (0xFF#16).toNat ∧ (0xFF#16).toNat < 0x100 := by decide

/-- Destinations with a result of their own beside FL, one of them PC. -/
theorem witness_addWritesWrappedSum : (3 : RegIdx) ≠ 0 ∧ (3 : RegIdx) ≠ 8 ∧ (7 : RegIdx) ≠ 0 ∧ (7 : RegIdx) ≠ 8 ∧
    (run2 cfg 0x124043#22 0xFFFF#16 0xFFFF#16).read 3 = 0xFFFE#16 := by decide

theorem witness_subWritesWrappedDifference : (15 : RegIdx) ≠ 0 ∧ (15 : RegIdx) ≠ 8 ∧
    (run2 cfg 0x144043#22 0#16 0x8000#16).read 3 = 0x8000#16 := by decide

theorem witness_addSubSetFlags : (0 : RegIdx) ≠ 8 ∧ (9 : RegIdx) ≠ 8 ∧
    (run2 cfg 0x144043#22 0x7FFF#16 0xFFFF#16).read 8 = 0x000E#16 ∧
    (run2 signedCfg 0x124043#22 0x7FFF#16 1#16).read 8 = 0x000E#16 := by decide

/-- Each of the four forms, in each of the two orders. -/
theorem witness_addSubIntoFlags :
    (∃ rb, Instr.add 8 2 4 = .add 8 2 rb) ∧ (∃ k8, Instr.addi 8 2 0xFF#8 = .addi 8 2 k8) ∧
    (∃ rb, Instr.sub 8 2 4 = .sub 8 2 rb) ∧ (∃ k8, Instr.subi 8 2 0x80#8 = .subi 8 2 k8) ∧
    cfg.flDstOrder = .flagsLast ∧ resultLastCfg.flDstOrder = .resultLast :=
  ⟨⟨4, rfl⟩, ⟨0xFF#8, rfl⟩, ⟨4, rfl⟩, ⟨0x80#8, rfl⟩, rfl, rfl⟩

/-- Amounts 15, 16 and 65535 in both modes. -/
theorem witness_asrShiftsWithSign :
    (15#16).toNat < 16 ∧ 16 ≤ (16#16).toNat ∧ 16 ≤ (immWord 0xFF#8).toNat ∧ cfg.shiftWide = .saturate ∧
    mod16Cfg.shiftWide = .mod16 ∧ (3 : RegIdx) ≠ 0 ∧ (0x8000#16).toInt < 0 ∧
    (run2 mod16Cfg 0x185FF3#22 0x8000#16 0#16).read 3 = 0xFFFF#16 := by decide

theorem witness_lsrShiftsInZeros :
    (15#16).toNat < 16 ∧ 16 ≤ (16#16).toNat ∧ 16 ≤ (immWord 0xFF#8).toNat ∧
    (run2 mod16Cfg 0x1A4043#22 0x8001#16 16#16).read 3 = 0x8001#16 := by decide

theorem witness_lslShiftsLeft :
    (15#16).toNat < 16 ∧ 16 ≤ (16#16).toNat ∧ 16 ≤ (immWord 0xFF#8).toNat ∧
    (run2 mod16Cfg 0x1C4043#22 1#16 16#16).read 3 = 1#16 := by decide

theorem witness_mulWritesLowProduct : (7 : RegIdx) ≠ 0 ∧
    (run2 cfg 0x1E4047#22 0xFFFF#16 0xFFFF#16).read 7 = 1#16 := by decide

theorem witness_bitwiseWritesEachBit : (3 : RegIdx) ≠ 0 ∧ 0 < 16 ∧ 15 < 16 ∧
    ((run2 cfg 0x164F43#22 0x0F0F#16 0x00FF#16).read 3) = 0xF00F#16 := by decide

theorem witness_movAndJmpWriteImmediate : (15 : RegIdx) ≠ 0 ∧
    (tick (machine cfg 0 0x0FFFF3#22 [] [])).read 3 = 0xFFFF#16 := by decide

/-- Addresses at the edges of every region: null port, both ends of RAM and out of bounds complete; an output port, a
reserved port, both ends of the hole and a strict out-of-bounds address fail. -/
theorem witness_ldxLoadsScaledAddress :
    readFault (at0 cfg [] []) (scaledAddr (at0 cfg [] []) 0 0#2 4#4) = none ∧
    readFault (at0 cfg [] []) (scaledAddr (at0 cfg [(2, 0x100#16), (1, 0x1E#16)] []) 2 3#2 15#4) = none ∧
    scaledAddr (at0 cfg [(2, 0x100#16), (1, 0x1E#16)] []) 2 3#2 15#4 = 0x1FF#16 ∧
    readFault (at0 cfg [] []) 0x200#16 = none ∧ readFault (at0 cfg [] []) 0xFFFF#16 = none ∧
    readFault (at0 strictCfg [] []) 0x200#16 = some (.outOfBounds 0x200#16 .read) ∧
    readFault (at0 cfg [] []) (scaledAddr (at0 cfg [(2, 0x100#16), (1, 0xFFFF#16)] []) 2 0#2 0#4) =
      some (.unimplementedPeripheral 0xFF#16 .read) ∧
    (3 : RegIdx) ≠ 0 := by decide

theorem witness_ldLoadsOffsetAddress :
    readFault (at0 cfg [] []) (offsetAddr (at0 cfg [(2, 0x1C0#16)] []) 2 63#6) = none ∧
    readFault (at0 cfg [] []) (offsetAddr (at0 cfg [(2, 0xFFFF#16)] []) 2 1#6) = none ∧
    readFault (at0 cfg [] []) (offsetAddr (at0 cfg [] []) 0 2#6) = some (.unimplementedPeripheral 2#16 .read) ∧
    readFault (at0 cfg [] []) (offsetAddr (at0 cfg [] []) 0 31#6) = some (.unimplementedPeripheral 31#16 .read) ∧
    readFault (at0 cfg [] []) (offsetAddr (at0 cfg [] []) 0 32#6) = some (.unimplementedPeripheral 32#16 .read) := by
  decide

theorem witness_stxStoresScaledAddress :
    Memory.wf (at0 cfg [] [(0x100, 1#16)]).ram = true ∧
    writeFault (at0 cfg [] []) (scaledAddr (at0 cfg [(2, 0x1F0#16)] []) 2 0#2 15#4) = none ∧
    writeFault (at0 cfg [] []) 0x100#16 = none ∧ writeFault (at0 cfg [] []) 0x200#16 = none ∧
    writeFault (at0 cfg [] []) (scaledAddr (at0 cfg [] []) 0 0#2 3#4) = none ∧
    writeFault (at0 cfg [] []) (scaledAddr (at0 cfg [] []) 0 0#2 5#4) =
      some (.unimplementedPeripheral 5#16 .write) := by decide

theorem witness_stStoresOffsetAddress :
    Memory.wf (at0 cfg [] [(0x1FF, 1#16)]).ram = true ∧
    writeFault (at0 cfg [] []) (offsetAddr (at0 cfg [(2, 0x1C0#16)] []) 2 63#6) = none ∧
    writeFault (at0 cfg [] []) (offsetAddr (at0 cfg [] []) 0 4#6) = none ∧
    writeFault (at0 cfg [] []) (offsetAddr (at0 cfg [] []) 0 32#6) =
      some (.unimplementedPeripheral 32#16 .write) ∧
    writeFault (at0 strictCfg [] []) (offsetAddr (at0 cfg [(2, 0x1C1#16)] []) 2 63#6) =
      some (.outOfBounds 0x200#16 .write) := by decide

theorem witness_pushStoresThenIncrements :
    Memory.wf (at0 cfg [(15, 0x1FF#16)] []).ram = true ∧
    writeFault (at0 cfg [(15, 0x100#16)] []) ((at0 cfg [(15, 0x100#16)] []).read 15) = none ∧
    writeFault (at0 cfg [(15, 0x1FF#16)] []) ((at0 cfg [(15, 0x1FF#16)] []).read 15) = none ∧
    writeFault (at0 cfg [(15, 0xFFFF#16)] []) ((at0 cfg [(15, 0xFFFF#16)] []).read 15) = none ∧
    writeFault (at0 cfg [(15, 0xFF#16)] []) ((at0 cfg [(15, 0xFF#16)] []).read 15) =
      some (.unimplementedPeripheral 0xFF#16 .write) := by decide

/-- SP at the cell after RAM's first and last, SP = 0, SP at the first RAM cell. -/
theorem witness_popDecrementsThenLoads :
    readFault (at0 cfg [(15, 0x101#16)] []) ((at0 cfg [(15, 0x101#16)] []).read 15 - 1#16) = none ∧
    readFault (at0 cfg [(15, 0x200#16)] []) ((at0 cfg [(15, 0x200#16)] []).read 15 - 1#16) = none ∧
    readFault (at0 cfg [] []) ((at0 cfg [] []).read 15 - 1#16) = none ∧
    readFault (at0 cfg [(15, 0x100#16)] []) ((at0 cfg [(15, 0x100#16)] []).read 15 - 1#16) =
      some (.unimplementedPeripheral 0xFF#16 .read) ∧
    (3 : RegIdx) ≠ 0 ∧ (3 : RegIdx) ≠ 15 := by decide

theorem witness_callPushesReturnAddress :
    Memory.wf (at0 cfg [(15, 0x1FF#16)] []).ram = true ∧
    writeFault (at0 cfg [(15, 0x1FF#16)] []) ((at0 cfg [(15, 0x1FF#16)] []).read 15) = none ∧
    writeFault (at0 strictCfg [(15, 0x200#16)] []) ((at0 strictCfg [(15, 0x200#16)] []).read 15) =
      some (.outOfBounds 0x200#16 .write) := by decide

/-- SP at both ends of RAM. -/
theorem witness_popPcReturnsFromCall :
    Memory.wf (at0 cfg [(15, 0x100#16)] []).ram = true ∧ 0x100 ≤ ((at0 cfg [(15, 0x100#16)] []).read 15).toNat ∧
    ((at0 cfg [(15, 0x1FF#16)] []).read 15).toNat ≤ 0x1FF := by decide

/-- Taken and not taken, at the ends of the signed and the unsigned order. -/
theorem witness_branchesCompareRegisters :
    (0x8000#16).toInt ≤ (0x7FFF#16).toInt ∧ ¬ (1#16).toInt ≤ (0xFFFF#16).toInt ∧
    (1#16).toNat ≤ (0xFFFF#16).toNat ∧ ¬ (0x8000#16).toNat ≤ (0x7FFF#16).toNat := by decide

theorem witness_ijneIncrementsThenCompares :
    (let s := at0 cfg [(1, 0xFFFF#16), (3, 0#16)] []
     0#16 = BitVec.ofNat 16 ((s.read 1).toNat + 1) ∧ ¬ readWithPt s 0#16 1 ≠ readWithPt s 0#16 3) ∧
    (let s := at0 cfg [(1, 2#16), (3, 4#16)] []
     3#16 = BitVec.ofNat 16 ((s.read 1).toNat + 1) ∧ readWithPt s 3#16 1 ≠ readWithPt s 3#16 3) := by decide

theorem witness_djgeDecrementsThenCompares :
    (let s := at0 cfg [(1, 0x8000#16)] []
     0x7FFF#16 = BitVec.ofInt 16 ((s.read 1).toInt - 1) ∧
       (readWithPt s 0x7FFF#16 0).toInt ≤ (readWithPt s 0x7FFF#16 1).toInt) ∧
    (let s := at0 cfg [(1, 0#16)] []
     0xFFFF#16 = BitVec.ofInt 16 ((s.read 1).toInt - 1) ∧
       ¬ (readWithPt s 0xFFFF#16 0).toInt ≤ (readWithPt s 0xFFFF#16 1).toInt) := by decide

/-- Finite operands: the extremes, and sums, differences, products and quotients that are zero, nonzero or too big. -/
theorem witness_faddRoundsExactSum :
    IsFinite 0x7BFF#16 ∧ IsFinite 0x8000#16 ∧ halfValue 0x3C00#16 + halfValue 0xBC00#16 = 0 ∧
    halfValue 0x8000#16 + halfValue 0x8000#16 = 0 ∧ 65520 ≤ |halfValue 0x7BFF#16 + halfValue 0x7BFF#16| := by
  refine ⟨by decide, by decide, ?_, ?_, ?_⟩ <;> norm_num [halfValue, signOf, expOf, fracOf]

theorem witness_fsubRoundsExactDifference :
    IsFinite 0x3C00#16 ∧ halfValue 0x3C00#16 - halfValue 0x3C00#16 = 0 ∧
    halfValue 0x8000#16 - halfValue 0x0000#16 = 0 ∧ halfValue 0x0000#16 - halfValue 0x3C00#16 ≠ 0 := by
  refine ⟨by decide, ?_, ?_, ?_⟩ <;> norm_num [halfValue, signOf, expOf, fracOf]

theorem witness_fmulRoundsExactProduct :
    IsFinite 0x0001#16 ∧ IsZero 0x8000#16 ∧ IsFinite 0x3C00#16 ∧
    |halfValue 0x0001#16 * halfValue 0x3800#16| < 65520 := by
  refine ⟨by decide, by decide, by decide, ?_⟩
  norm_num [halfValue, signOf, expOf, fracOf]

theorem witness_fdivRoundsExactQuotient :
    IsFinite 0x3C00#16 ∧ IsFinite 0x4200#16 ∧ ¬ IsZero 0x4200#16 ∧ IsZero 0x8000#16 ∧ IsFinite 0x8000#16 ∧
    ¬ IsZero 0x3C00#16 ∧ halfValue 0x3C00#16 / halfValue 0x4200#16 = 1 / 3 := by
  refine ⟨by decide, by decide, by decide, by decide, by decide, by decide, ?_⟩
  norm_num [halfValue, signOf, expOf, fracOf]

theorem witness_addSubSpecialValues :
    IsNan 0x7C01#16 ∧ IsNan 0xFFFF#16 ∧ IsInf 0x7C00#16 ∧ IsInf 0xFC00#16 ∧ signOf 0x7C00#16 ≠ signOf 0xFC00#16 ∧
    IsFinite 0x7BFF#16 ∧ IsFinite 0x0000#16 := by decide

theorem witness_mulDivSpecialValues :
    IsNan 0x7E00#16 ∧ IsInf 0x7C00#16 ∧ IsZero 0x8000#16 ∧ ¬ IsNan 0xC000#16 ∧ ¬ IsZero 0xC000#16 ∧
    IsInf 0xFC00#16 ∧ IsFinite 0x8000#16 := by decide

theorem witness_ftoiTruncates : IsFinite 0xFBFF#16 ∧ IsFinite 0x0001#16 ∧ (3 : RegIdx) ≠ 0 ∧
    halfValue 0xFBFF#16 < 0 ∧ ¬ halfValue 0x7BFF#16 < 0 := by
  refine ⟨by decide, by decide, by decide, ?_, ?_⟩ <;> norm_num [halfValue, signOf, expOf, fracOf]

theorem witness_ftoiFaultsOnNanAndInfinity :
    IsNan ((at0 cfg [(2, 0x7C01#16)] []).read 2) ∧ IsInf ((at0 cfg [(2, 0xFC00#16)] []).read 2) := by decide

theorem witness_integersRoundToHalf : (3 : RegIdx) ≠ 0 ∧ (at0 cfg [] []).read 2 = 0#16 ∧
    |((0x8000#16).toInt : ℚ)| < 65520 ∧ 65520 ≤ |((65520#16).toNat : ℚ)| := by
  refine ⟨by decide, by decide, ?_, ?_⟩ <;> norm_num [BitVec.toInt]

/-- Both ends of every range, inside and one beyond. -/
theorem witness_loadersWriteTheirStores :
    (65535 < 65536 ∧ 2 ^ 22 - 1 < 2 ^ 22) ∧
    ((65536, 0) ∈ [(0, 0), (65536, 0)] ∧ 65536 ≤ ((65536, 0) : Nat × Nat).1) ∧
    ((0, 2 ^ 22) ∈ [(0, 2 ^ 22)] ∧ 2 ^ 22 ≤ ((0, 2 ^ 22) : Nat × Nat).2) ∧
    (Memory.wf (at0 cfg [] []).ram = true ∧ 0x100 ≤ 0x100 ∧ 0x1FF ≤ 0x1FF ∧ 65535 < 65536) ∧
    ((0xFF, 0) ∈ [(0x100, 0), (0xFF, 0)] ∧ ((0xFF, 0) : Nat × Nat).1 < 0x100) ∧
    ((0x200, 0) ∈ [(0x200, 0)] ∧ 0x1FF < ((0x200, 0) : Nat × Nat).1) ∧
    ((0x100, 65536) ∈ [(0x100, 65536)] ∧ 65536 ≤ ((0x100, 65536) : Nat × Nat).2) := by decide

end Sys2Proof.Tests
end

section
/-! The registers and the end of a tick (spec/10_state.md): obligations O8 and O23. -/

namespace Sys2Proof.Machine

/-- The word listed at PC is the word fetched (R60). -/
theorem State.fetch_of_get {s : State} {w : InstrWord} (h : s.rom.get (s.read 7).toNat = some w) :
    s.fetch = .ok w := by
  have hpc : s.rom.get s.pc.toNat = some w := h
  simp [State.fetch, hpc]

/-- A tick of a running core whose instruction completes is that instruction and the end of the tick (R262). -/
theorem step_of_exec_next {s t : State} {w : InstrWord} {i : Instr} (hs : Claims.Running s) (hw : s.fetch = .ok w)
    (hi : decode w = .ok i) (ht : exec i s = .next t) : step s = .next t.finishTick := by
  obtain ⟨hrun, hfault⟩ := hs
  simp [step, hrun, hfault, hw, hi, ht]

/-- The end of a tick that does not halt advances PC. -/
theorem State.finishTick_of_running {s : State} (h : s.running = true) : s.finishTick = s.advancePc := if_pos h

/-- PC after `advance_pc` as a number: kept where `pcw` is set, else one more modulo 2^16 (R26, R27). -/
theorem State.toNat_read_seven_advancePc (s : State) :
    (s.advancePc.read 7).toNat = if s.pcw then (s.read 7).toNat else ((s.read 7).toNat + 1) % 65536 := by
  rw [State.read_advancePc]
  cases s.pcw with
  | true => simp
  | false => simp [State.pc]

/-- `advance_pc` leaves the other registers alone. -/
theorem State.read_advancePc_ne (s : State) {j : RegIdx} (h : j ≠ 7) : s.advancePc.read j = s.read j := by
  simp [State.read_advancePc, h]

/-- `advance_pc` touches neither RAM nor the log. -/
theorem State.advancePc_memFrame (s : State) : Claims.MemFrame s s.advancePc := by
  simp [Claims.MemFrame]

/-- Settles O8: the tick ends in `advancePc` of the state the instruction left. -/
theorem pcAdvancesUnlessWritten : Obligations.PcAdvancesUnlessWritten := by
  unfold Obligations.PcAdvancesUnlessWritten
  intro s t w i hs hw hi ht hrun
  have hstep : step s = .next t.advancePc := by
    rw [step_of_exec_next hs (State.fetch_of_get hw) hi ht, State.finishTick_of_running hrun]
  exact ⟨t.advancePc, hstep, t.advancePc_pcw, t.toNat_read_seven_advancePc, fun _ => t.read_advancePc_ne,
    t.advancePc_memFrame, t.advancePc_rom, t.advancePc_running, t.advancePc_fault, t.advancePc_cfg, t.advancePc_draws⟩

/-- Settles O23, from the rules of reading and writing a register. -/
theorem registerZeroAndPcWrites : Obligations.RegisterZeroAndPcWrites := by
  unfold Obligations.RegisterZeroAndPcWrites
  refine ⟨State.read_zero, State.write_zero, ?setsPcw, ?keepsPcw, ?readBack⟩
  case setsPcw => intro s v; simp
  case keepsPcw => intro s i v hi; simp [hi]
  case readBack =>
    intro s i j v hi
    by_cases hj : j = i
    · subst hj; simp [State.read_write_self s j v hi]
    · simp [State.read_write_ne s i j v hj, hj]

end Sys2Proof.Machine
end

section
/-! What an instruction is made of (40_alu.md to 43_control_flow.md): register writes, free values, stores and the halt.
A property that these keep, every instruction keeps; the program store and the configuration follow: obligation O16. -/

namespace Sys2Proof.Machine

/-- Every operation that an instruction is made of keeps `P`. -/
structure OpsKeep (P : State → Prop) : Prop where
  write : ∀ (s : State) (i : RegIdx) (v : Word), P s → P (s.write i v)
  draw : ∀ s : State, P s → P { s with draws := s.draws + 1 }
  store : ∀ (s t : State) (a v : Word), s.memWrite a v = .ok t → P s → P t
  halt : ∀ s : State, P s → P s.halt

section
variable {P : State → Prop} {s t : State}

/-- The two writes of add and sub (R125). -/
theorem OpsKeep.writeAddSub (hP : OpsKeep P) (rd : RegIdx) (r f : Word) (hs : P s) : P (s.writeAddSub rd r f) := by
  unfold State.writeAddSub
  split <;> exact hP.write _ _ _ (hP.write _ _ _ hs)

/-- A branch after its PT update, if any (R205). -/
theorem OpsKeep.branchIf (hP : OpsKeep P) (c : Word → Word → Bool) (r1 r2 : RegIdx) (off8 : BitVec 8) (hs : P s) :
    P (s.branchIf c r1 r2 off8) := by
  rcases s.branchIf_cases c r1 r2 off8 with ⟨_, h⟩ | ⟨_, h⟩ <;> rw [h]
  · exact hP.write _ _ _ hs
  · exact hs

/-- The result of an FPU operation (R153). -/
theorem OpsKeep.writeHalf (hP : OpsKeep P) (rd : RegIdx) (r : Option Word) (hs : P s) : P (s.writeHalf rd r) := by
  rcases s.writeHalf_cases rd r with ⟨v, _, h⟩ | ⟨_, h⟩ <;> rw [h]
  · exact hP.write _ _ _ hs
  · exact hP.write _ _ _ (hP.draw s hs)

/-- A load into a register (R173). -/
theorem OpsKeep.loadInto (hP : OpsKeep P) {rd : RegIdx} {a : Word} (h : s.loadInto rd a = .next t) (hs : P s) :
    P t := by
  obtain ⟨v, _, rfl⟩ := State.loadInto_next.mp h
  exact hP.write _ _ _ hs

/-- A store as a whole instruction (R174). -/
theorem OpsKeep.storeAt (hP : OpsKeep P) {a v : Word} (h : s.storeAt a v = .next t) (hs : P s) : P t :=
  hP.store s t a v (State.storeAt_next.mp h) hs

/-- The start of push and call (R196, R201). -/
theorem OpsKeep.pushWord (hP : OpsKeep P) {v : Word} (h : s.pushWord v = .ok t) (hs : P s) : P t := by
  obtain ⟨u, hu, rfl⟩ := State.pushWord_ok.mp h
  exact hP.write _ _ _ (hP.store s u _ _ hu hs)

/-- What the operations keep, every instruction that completes keeps. -/
theorem OpsKeep.exec (hP : OpsKeep P) {i : Instr} (h : exec i s = .next t) (hs : P s) : P t := by
  cases i with
  | mov | jmp | asr | asri | lsr | lsri | lsl | lsli | mul | muli | or | xor | nor | xnor | itof | utof =>
    cases h
    exact hP.write _ _ _ hs
  | add | addi | sub | subi =>
    cases h
    exact hP.writeAddSub _ _ _ hs
  | fadd | fsub | fmul | fdiv =>
    cases h
    exact hP.writeHalf _ _ hs
  | jge | jl | je | jne | jae | jb =>
    cases h
    exact hP.branchIf _ _ _ _ hs
  | ijne | djge =>
    cases h
    exact hP.branchIf _ _ _ _ (hP.write _ _ _ hs)
  | ldx | ld => exact hP.loadInto h hs
  | pop => exact hP.loadInto h (hP.write _ _ _ hs)
  | stx | st => exact hP.storeAt h hs
  | push =>
    simp only [Machine.exec, execPush] at h
    split at h <;> cases h
    next hu => exact hP.pushWord hu hs
  | call =>
    simp only [Machine.exec, execCall] at h
    split at h <;> cases h
    next hu => exact hP.write _ _ _ (hP.pushWord hu hs)
  | ftoi =>
    simp only [Machine.exec, execFtoi] at h
    split at h <;> cases h
    exact hP.write _ _ _ hs
  | hlt =>
    cases h
    exact hP.halt s hs
  | nop | int =>
    cases h
    split
    · exact hP.halt s hs
    · exact hs

end

/-- `t` has the program store and the configuration of `s`. -/
def SameProgram (s t : State) : Prop := t.rom = s.rom ∧ t.cfg = s.cfg

/-- A store reaches RAM or the log, never the program store or the configuration (R54, R61). -/
theorem State.memWrite_sameProgram {s t : State} {a v : Word} (h : s.memWrite a v = .ok t) : SameProgram s t := by
  rcases State.memWrite_ok h with rfl | ⟨_, k, rfl⟩ | ⟨_, rfl⟩ <;> exact ⟨rfl, rfl⟩

theorem sameProgram_opsKeep (s : State) : OpsKeep (SameProgram s) where
  write u i v h := by simpa [SameProgram] using h
  draw _ h := h
  store _ _ _ _ hu h :=
    have ⟨hrom, hcfg⟩ := State.memWrite_sameProgram hu
    ⟨hrom.trans h.1, hcfg.trans h.2⟩
  halt _ h := h

@[simp] theorem State.finishTick_rom (s : State) : s.finishTick.rom = s.rom := by
  unfold State.finishTick; split <;> simp
@[simp] theorem State.finishTick_cfg (s : State) : s.finishTick.cfg = s.cfg := by
  unfold State.finishTick; split <;> simp

/-- Settles O16, by the three ways a tick can go: it does nothing, it records an error, or its instruction completes. -/
theorem ticksNeverLoadProgram : Obligations.TicksNeverLoadProgram := by
  unfold Obligations.TicksNeverLoadProgram
  intro s t h
  rcases step_cases h with ⟨_, rfl⟩ | ⟨_, _, ⟨f, rfl, _⟩ | ⟨w, i, u, _, _, hu, rfl⟩⟩
  · exact ⟨rfl, rfl⟩
  · exact ⟨s.raise_rom f, s.raise_cfg f⟩
  · have hsame : SameProgram s u := (sameProgram_opsKeep s).exec hu ⟨rfl, rfl⟩
    simpa [SameProgram] using hsame

end Sys2Proof.Machine
end

section
/-! RAM and the addresses beyond it on the memory bus (spec/20_memory.md): obligations O24 and O25. -/

namespace Sys2Proof.Machine

/-! Storing a value again -/

/-- Where nothing is listed, listing nothing changes nothing. -/
theorem Cells.drop_of_get_eq_none {α : Type} (m : Cells α) (a : Nat) (h : m.get a = none) : m.drop a = m := by
  induction m with
  | nil => rfl
  | cons c m ih =>
    simp only [Cells.get] at h
    split at h
    · cases h
    · next hk => simp [Cells.drop, hk, ih h]

/-- Of two listings at one address the second stands. -/
theorem Cells.put_put {α : Type} (m : Cells α) (a : Nat) (u v : α) : (m.put a u).put a v = m.put a v := by
  induction m with
  | nil => simp [Cells.put]
  | cons c m ih =>
    obtain ⟨k, w⟩ := c
    rcases lt_trichotomy a k with hk | rfl | hk
    · simp [Cells.put, hk]
    · simp [Cells.put]
    · simp [Cells.put, hk.not_gt, hk.ne', ih]

/-- A RAM write is idempotent (R55). -/
theorem Memory.write_write (m : Cells Word) (a : Nat) (v : Word) (h : Memory.wf m = true) :
    Memory.write (Memory.write m a v) a v = Memory.write m a v := by
  unfold Memory.write
  split
  · have hnone : (m.drop a).get a = none := by rw [Cells.get_drop m a a (Memory.sorted_of_wf h), if_pos rfl]
    exact Cells.drop_of_get_eq_none _ a hnone
  · exact Cells.put_put m a v v

/-! The bus by region (R53, R54) -/

/-- In RAM a load gives the cell. -/
theorem State.memRead_ram (s : State) {a : Word} (hlo : 0x100 ≤ a.toNat) (hhi : a.toNat ≤ 0x1FF) :
    s.memRead a = .ok (Memory.read s.ram a.toNat) := by
  simp [State.memRead, hlo.not_gt, hhi]

/-- In RAM a store writes the cell. -/
theorem State.memWrite_ram (s : State) {a : Word} (v : Word) (hlo : 0x100 ≤ a.toNat) (hhi : a.toNat ≤ 0x1FF) :
    s.memWrite a v = .ok { s with ram := Memory.write s.ram a.toNat v } := by
  simp [State.memWrite, hlo.not_gt, hhi]

/-- Beyond RAM a load gives 0 or fails, by STRICT_OOB (R57). -/
theorem State.memRead_beyond (s : State) {a : Word} (ha : 0x200 ≤ a.toNat) :
    s.memRead a = if s.cfg.strictOob then .error (.outOfBounds a .read) else .ok 0#16 := by
  have hport : ¬ a.toNat < 0x100 := by omega
  have hram : ¬ a.toNat ≤ 0x1FF := by omega
  rw [State.memRead, if_neg hport, if_neg hram]

/-- Beyond RAM a store is dropped or fails, by STRICT_OOB (R57). -/
theorem State.memWrite_beyond (s : State) {a : Word} (v : Word) (ha : 0x200 ≤ a.toNat) :
    s.memWrite a v = if s.cfg.strictOob then .error (.outOfBounds a .write) else .ok s := by
  have hport : ¬ a.toNat < 0x100 := by omega
  have hram : ¬ a.toNat ≤ 0x1FF := by omega
  rw [State.memWrite, if_neg hport, if_neg hram]

/-- What a load answers depends on the configuration and the addressed cell alone. -/
theorem State.memRead_congr {s t : State} {a : Word} (hcfg : t.cfg = s.cfg)
    (hram : Memory.read t.ram a.toNat = Memory.read s.ram a.toNat) : t.memRead a = s.memRead a := by
  simp only [State.memRead, State.ioRead, State.portKind, hcfg, hram]

/-- Settles O24, from the read of a RAM cell after a write and the idempotence of the write. -/
theorem ramRoundTrip : Obligations.RamRoundTrip := by
  unfold Obligations.RamRoundTrip
  intro s a v hwf hlo hhi
  refine ⟨⟨_, s.memRead_ram hlo hhi⟩, _, s.memWrite_ram v hlo hhi, ?readBack, ?others, rfl, ?again⟩
  case readBack => rw [State.memRead_ram _ hlo hhi, Memory.read_write s.ram _ _ v hwf, if_pos rfl]
  case others =>
    intro b hb
    have hne : b.toNat ≠ a.toNat := BitVec.toNat_inj.not.mpr hb
    exact State.memRead_congr rfl ((Memory.read_write s.ram _ _ v hwf).trans (if_neg hne))
  case again => rw [State.memWrite_ram _ v hlo hhi, Memory.write_write s.ram _ v hwf]

/-- Settles O25, from what the bus answers beyond RAM. -/
theorem outOfBoundsPolicy : Obligations.OutOfBoundsPolicy := by
  unfold Obligations.OutOfBoundsPolicy
  refine ⟨rfl, fun s a v ha => ?_⟩
  rw [s.memRead_beyond ha, s.memWrite_beyond v ha]
  constructor
  · intro h; simp [h]
  · intro h; simp [h]

end Sys2Proof.Machine
end

section
/-! The words that are no instruction (spec/30_encoding.md): obligation O12. -/

namespace Sys2Proof.Machine

/-- An error raised before execute leaves its record and nothing else (R232). -/
theorem State.raise_of_beforeExecute (s : State) {f : Fault} (h : f.beforeExecute = true) :
    s.raise f = { s with fault := some ⟨f, s.pc⟩ } := if_pos h

/-- A tick of a running core that fetches a word the decoder rejects raises DecodeError (R99, R262). -/
theorem step_of_decode_error {s : State} {w : InstrWord} {r : DecodeReject} (hs : Claims.Running s)
    (hw : s.fetch = .ok w) (hr : decode w = .error r) : step s = .next (s.raise (.decodeError w)) := by
  obtain ⟨hrun, hfault⟩ := hs
  simp [step, hrun, hfault, hw, hr]

/-- Settles O12: the tick raises DecodeError, which is raised before execute and so leaves its record alone. -/
theorem undecodableWordFaults : Obligations.UndecodableWordFaults := by
  unfold Obligations.UndecodableWordFaults
  intro s w r hs hw hr
  have hstep : step s = .next (s.raise (.decodeError w)) := step_of_decode_error hs (State.fetch_of_get hw) hr
  rw [hstep, State.raise_of_beforeExecute s rfl, State.pc]

end Sys2Proof.Machine
end

section
/-! Multiply and the bitwise operations (spec/40_alu.md R136 to R143): obligations O35 and O36. -/

namespace Sys2Proof.Machine

/-! One register write as a whole instruction -/

/-- A register write touches that register, and `pcw` if the register is PC (R24). -/
theorem State.write_frame (s : State) (rd : RegIdx) (v : Word) : Claims.Frame s (s.write rd v) [rd] := by
  have hread : ∀ j, j ∉ [rd] → (s.write rd v).read j = s.read j :=
    fun j hj => s.read_write_ne rd j v (by simpa using hj)
  have hpcw : (s.write rd v).pcw = (s.pcw || decide (7 ∈ [rd])) := by simp [eq_comm (a := rd)]
  have hmem : Claims.MemFrame s (s.write rd v) := by simp [Claims.MemFrame]
  exact ⟨⟨hread, hpcw, s.write_rom rd v, s.write_running rd v, s.write_fault rd v, s.write_cfg rd v⟩, hmem,
    s.write_draws rd v⟩

/-- An instruction that is one register write completes within the frame of its destination, which holds the value
written unless it is register 0. -/
theorem completes_of_exec_write {s : State} {i : Instr} {rd : RegIdx} {v : Word} (P : Word → Prop)
    (hi : exec i s = .next (s.write rd v)) (hv : P v) :
    ∃ t, exec i s = .next t ∧ Claims.Frame s t [rd] ∧ (rd ≠ 0 → P (t.read rd)) := by
  refine ⟨s.write rd v, hi, s.write_frame rd v, fun hrd => ?_⟩
  rwa [s.read_write_self rd v hrd]

/-! Multiply -/

/-- The sign-extended immediate is the word with the signed value of the field (R100). -/
theorem sext16_eq_immWord (k8 : BitVec 8) : sext16 k8 = Claims.immWord k8 := rfl

/-- Settles O35: the product of two words is the product of their numbers modulo 2^16. -/
theorem mulWritesLowProduct : Obligations.MulWritesLowProduct := by
  unfold Obligations.MulWritesLowProduct
  constructor
  · intro s rd ra rb
    exact completes_of_exec_write (fun r => r.toNat = (s.read ra).toNat * (s.read rb).toNat % 65536) rfl
      (BitVec.toNat_mul _ _)
  · intro s rd ra k8
    rw [← sext16_eq_immWord]
    exact completes_of_exec_write (fun r => r.toNat = (s.read ra).toNat * (sext16 k8).toNat % 65536) rfl
      (BitVec.toNat_mul _ _)

/-! The bitwise operations, bit by bit (R139) -/

/-- Each bit of an operand is complemented where its flag is set. -/
theorem getLsbD_negIf (c : Bool) (v : Word) {k : Nat} (hk : k < 16) :
    (negIf c v).getLsbD k = (v.getLsbD k ^^ c) := by
  cases c with
  | false => simp [negIf]
  | true => simp [negIf, hk]

theorem getLsbD_orOf (nA nB : Bool) (a b : Word) {k : Nat} (hk : k < 16) :
    (orOf nA nB a b).getLsbD k = ((a.getLsbD k ^^ nA) || (b.getLsbD k ^^ nB)) := by
  rw [orOf, BitVec.getLsbD_or, getLsbD_negIf nA a hk, getLsbD_negIf nB b hk]

theorem getLsbD_xorOf (nA nB : Bool) (a b : Word) {k : Nat} (hk : k < 16) :
    (xorOf nA nB a b).getLsbD k = ((a.getLsbD k ^^ nA) ^^ (b.getLsbD k ^^ nB)) := by
  rw [xorOf, BitVec.getLsbD_xor, getLsbD_negIf nA a hk, getLsbD_negIf nB b hk]

/-- `completes_of_exec_write` for a result that is given bit by bit. -/
theorem completes_of_exec_write_bits {s : State} {i : Instr} {rd : RegIdx} {v : Word} {bit : Nat → Bool}
    (hi : exec i s = .next (s.write rd v)) (hv : ∀ k, k < 16 → v.getLsbD k = bit k) :
    ∃ t, exec i s = .next t ∧ Claims.Frame s t [rd] ∧ (rd ≠ 0 → ∀ k, k < 16 → (t.read rd).getLsbD k = bit k) :=
  completes_of_exec_write (fun r => ∀ k, k < 16 → r.getLsbD k = bit k) hi hv

/-- Settles O36: each operation is one register write, and its bits are those of `orOf` or `xorOf`, complemented for
nor and xnor. -/
theorem bitwiseWritesEachBit : Obligations.BitwiseWritesEachBit := by
  unfold Obligations.BitwiseWritesEachBit
  intro s rd ra rb nA nB
  refine ⟨completes_of_exec_write_bits rfl ?or, completes_of_exec_write_bits rfl ?xor,
    completes_of_exec_write_bits rfl ?nor, completes_of_exec_write_bits rfl ?xnor⟩
  case or => exact fun k hk => getLsbD_orOf nA nB _ _ hk
  case xor => exact fun k hk => getLsbD_xorOf nA nB _ _ hk
  case nor =>
    intro k hk
    rw [BitVec.getLsbD_not, getLsbD_orOf nA nB _ _ hk, decide_eq_true hk, Bool.true_and]
  case xnor =>
    intro k hk
    rw [BitVec.getLsbD_not, getLsbD_xorOf nA nB _ _ hk, decide_eq_true hk, Bool.true_and]

end Sys2Proof.Machine
end

section
/-! Immediate moves and jumps (spec/42_memory_access.md R170, spec/43_control_flow.md R200): obligation O37. -/

namespace Sys2Proof.Machine

/-- Settles O37: mov is one write of its immediate to its destination, jmp one write of it to register 7, which is not
register 0. -/
theorem movAndJmpWriteImmediate : Obligations.MovAndJmpWriteImmediate := by
  unfold Obligations.MovAndJmpWriteImmediate
  constructor
  · intro s rd k16
    exact completes_of_exec_write (· = k16) rfl rfl
  · intro s k16
    have hpc : (7 : RegIdx) ≠ 0 := by decide
    exact ⟨s.write 7 k16, rfl, s.write_frame 7 k16, s.read_write_self 7 k16 hpc⟩

end Sys2Proof.Machine
end

section
/-! The comparing branches (spec/43_control_flow.md R205 to R211): obligation O46. -/

namespace Sys2Proof.Machine

/-- The target of a branch in numbers: its own address plus the signed offset, modulo 2^16 (R205). -/
theorem State.branchTarget_eq_ofInt (s : State) (off8 : BitVec 8) :
    s.branchTarget off8 = BitVec.ofInt 16 ((s.read 7).toNat + off8.toInt) := by
  rw [State.branchTarget, State.pc, sext16, BitVec.signExtend, BitVec.ofInt_add, BitVec.ofInt_natCast,
    BitVec.ofNat_toNat, BitVec.setWidth_eq]

/-- A branch without PT update whose test decides `taken` writes its target to PC if `taken`, and else does nothing. -/
theorem State.branchIf_branches (s : State) {c : Word → Word → Bool} {r1 r2 : RegIdx} (off8 : BitVec 8)
    {taken : Prop} (hc : c (s.read r1) (s.read r2) = true ↔ taken) :
    Claims.Branches s off8 taken (.next (s.branchIf c r1 r2 off8)) := by
  refine ⟨s.branchIf c r1 r2 off8, rfl, ?_⟩
  rcases s.branchIf_cases c r1 r2 off8 with ⟨htest, hwrite⟩ | ⟨htest, hsame⟩
  · have hpc : (7 : RegIdx) ≠ 0 := by decide
    have htarget := (s.read_write_self 7 (s.branchTarget off8) hpc).trans (s.branchTarget_eq_ofInt off8)
    rw [hwrite]
    exact ⟨fun _ => ⟨htarget, s.write_frame 7 _⟩, fun hnot => absurd (hc.mp htest) hnot⟩
  · have hnot : ¬ taken := fun h => by simp [hc.mpr h] at htest
    exact ⟨fun h => absurd h hnot, fun _ => hsame⟩

/-! What the tests decide (R206 to R211) -/

theorem signedGe_eq_true_iff (a b : Word) : signedGe a b = true ↔ b.toInt ≤ a.toInt := decide_eq_true_iff

theorem unsignedGe_eq_true_iff (a b : Word) : unsignedGe a b = true ↔ b.toNat ≤ a.toNat := decide_eq_true_iff

theorem not_signedGe_eq_true_iff (a b : Word) : (!signedGe a b) = true ↔ a.toInt < b.toInt := by
  rw [Bool.not_eq_true', ← Bool.not_eq_true, signedGe_eq_true_iff, not_le]

theorem not_unsignedGe_eq_true_iff (a b : Word) : (!unsignedGe a b) = true ↔ a.toNat < b.toNat := by
  rw [Bool.not_eq_true', ← Bool.not_eq_true, unsignedGe_eq_true_iff, not_le]

/-- Settles O46: each of the six is a branch without PT update, and its test decides its comparison. -/
theorem branchesCompareRegisters : Obligations.BranchesCompareRegisters := by
  unfold Obligations.BranchesCompareRegisters
  intro s r1 r2 off8
  refine ⟨s.branchIf_branches off8 ?jge, s.branchIf_branches off8 ?jl, s.branchIf_branches off8 ?je,
    s.branchIf_branches off8 ?jne, s.branchIf_branches off8 ?jae, s.branchIf_branches off8 ?jb⟩
  case jge => exact signedGe_eq_true_iff _ _
  case jl => exact not_signedGe_eq_true_iff _ _
  case je => exact beq_iff_eq
  case jne => exact bne_iff_ne
  case jae => exact unsignedGe_eq_true_iff _ _
  case jb => exact not_unsignedGe_eq_true_iff _ _

end Sys2Proof.Machine
end

section
/-! Decoding and encoding (spec/30_encoding.md): obligations O1, O2, O3 and O4. -/
namespace Sys2Proof

theorem regField_eq_iff {w : InstrWord} {lo : Nat} {r : RegIdx} :
    regField w lo = r ↔ w.toNat / 2 ^ lo % 16 = r.val := by
  rw [← regField_val, Fin.ext_iff]

theorem field_eq_iff {w : InstrWord} {lo n : Nat} {v : BitVec n} :
    field w lo n = v ↔ w.toNat / 2 ^ lo % 2 ^ n = v.toNat := by
  rw [← field_toNat, BitVec.toNat_inj]

theorem field_eq_ofNat_iff {w : InstrWord} {lo n k : Nat} :
    field w lo n = BitVec.ofNat n k ↔ w.toNat / 2 ^ lo % 2 ^ n = k % 2 ^ n := by
  rw [field_eq_iff, BitVec.toNat_ofNat]

/-! The two exact words and the four classes (R92) -/

theorem decode_class_zero {w : InstrWord} (h : w.toNat / 2 ^ 20 % 4 = 0) :
    decode w = if w = 0x000000#22 then .ok .nop
      else if regField w 0 = 7 then .ok (.jmp (field w 4 16)) else .ok (.mov (regField w 0) (field w 4 16)) := by
  have hhlt : w ≠ 0x100400#22 := by rintro rfl; revert h; decide
  have hfield : (field w 20 2).toNat = 0 := (field_toNat w 20 2).trans h
  simp only [decode, if_neg hhlt, hfield]

theorem decode_class_one {w : InstrWord} (h : w.toNat / 2 ^ 20 % 4 = 1) :
    decode w = if w = 0x100400#22 then .ok .hlt else decodeAluMisc w := by
  have hnop : w ≠ 0x000000#22 := by rintro rfl; revert h; decide
  have hfield : (field w 20 2).toNat = 1 := (field_toNat w 20 2).trans h
  simp only [decode, if_neg hnop, hfield]

theorem decode_class_two {w : InstrWord} (h : w.toNat / 2 ^ 20 % 4 = 2) : decode w = decodeBranch w := by
  have hnop : w ≠ 0x000000#22 := by rintro rfl; revert h; decide
  have hhlt : w ≠ 0x100400#22 := by rintro rfl; revert h; decide
  have hfield : (field w 20 2).toNat = 2 := (field_toNat w 20 2).trans h
  simp only [decode, if_neg hnop, if_neg hhlt, hfield]

theorem decode_class_three {w : InstrWord} (h : w.toNat / 2 ^ 20 % 4 = 3) :
    decode w = if regField w 0 = 7 then .ok (.call (field w 4 16)) else .error .callDst := by
  have hnop : w ≠ 0x000000#22 := by rintro rfl; revert h; decide
  have hhlt : w ≠ 0x100400#22 := by rintro rfl; revert h; decide
  have hfield : (field w 20 2).toNat = 3 := (field_toNat w 20 2).trans h
  simp only [decode, if_neg hnop, if_neg hhlt, hfield]

/-- In the ALU/Misc class a secondary other than 0 is not the word of hlt. -/
theorem decode_secondary {w : InstrWord} {op : Nat} (h : w.toNat / 2 ^ 17 % 32 = 8 + op) (hlo : 0 < op) (hhi : op < 8) :
    decode w = decodeAluMisc w ∧ (field w 17 3).toNat = op := by
  have hhlt : w ≠ 0x100400#22 := by
    rintro rfl
    have hop : 8 = 8 + op := h
    omega
  have hclass : w.toNat / 2 ^ 20 % 4 = 1 := by omega
  rw [decode_class_one hclass, if_neg hhlt, field_toNat]
  exact ⟨rfl, by omega⟩

/-- The word of hlt has subop3 1 and subop5 4. -/
theorem ne_hlt_of_subop3 {w : InstrWord} (h : (field w 10 3).toNat ≠ 1) : w ≠ 0x100400#22 := by
  rintro rfl
  exact h (by decide)

theorem ne_hlt_of_subop5 {w : InstrWord} (h : (field w 8 5).toNat ≠ 4) : w ≠ 0x100400#22 := by
  rintro rfl
  exact h (by decide)

/-- Secondary 0 is the misc group. -/
theorem decode_misc {w : InstrWord} (h : w.toNat / 2 ^ 17 % 32 = 8) (hhlt : w ≠ 0x100400#22) :
    decode w = decodeMisc w := by
  have hclass : w.toNat / 2 ^ 20 % 4 = 1 := by omega
  have hop : (field w 17 3).toNat = 0 := by rw [field_toNat]; omega
  rw [decode_class_one hclass, if_neg hhlt]
  simp only [decodeAluMisc, hop]

/-- Below the structural codes 4 to 7 of subop3, subop5 selects the operation (R90, R96). -/
theorem decode_miscOp {w : InstrWord} (h : w.toNat / 2 ^ 17 % 32 = 8) (hhlt : w ≠ 0x100400#22)
    (hlow : (field w 10 3).toNat < 4) : decode w = decodeMiscOp w := by
  rw [decode_misc h hhlt, decodeMisc]
  split
  case h_5 => rfl
  all_goals omega

/-! What the fields of an encoded word hold (R83 to R90) -/

theorem encodeImm_fields {p : Nat} (hp : p < 4) {k16 : BitVec 16} {rd : RegIdx} {w : InstrWord}
    (hw : w = encodeImm p k16 rd) :
    w.toNat / 2 ^ 20 % 4 = p ∧ field w 4 16 = k16 ∧ regField w 0 = rd := by
  have hn : w.toNat = p * 2 ^ 20 + k16.toNat * 2 ^ 4 + rd.val := by
    rw [hw, encodeImm, BitVec.toNat_ofNat]; omega
  exact ⟨by omega, field_eq_iff.mpr (by omega), regField_eq_iff.mpr (by omega)⟩

theorem encodeBranch_fields {cond : Nat} (hc : cond < 8) {r1 r2 : RegIdx} {off8 : BitVec 8} {w : InstrWord}
    (hw : w = encodeBranch cond r1 r2 off8) :
    w.toNat / 2 ^ 20 % 4 = 2 ∧ (field w 17 3).toNat = cond ∧ regField w 13 = r2 ∧ field w 12 1 = 0#1 ∧
      field w 4 8 = off8 ∧ regField w 0 = r1 := by
  have hn : w.toNat = 2 * 2 ^ 20 + cond * 2 ^ 17 + r2.val * 2 ^ 13 + off8.toNat * 2 ^ 4 + r1.val := by
    rw [hw, encodeBranch, BitVec.toNat_ofNat]; omega
  rw [field_toNat]
  refine ⟨?_, ?_, regField_eq_iff.mpr ?_, field_eq_ofNat_iff.mpr ?_, field_eq_iff.mpr ?_,
    regField_eq_iff.mpr ?_⟩ <;> omega

theorem encodeAluReg_fields {op : Nat} (hop : op < 8) {rd ra rb : RegIdx} {w : InstrWord}
    (hw : w = encodeAluReg op rd ra rb) :
    w.toNat / 2 ^ 17 % 32 = 8 + op ∧ regField w 13 = ra ∧ field w 12 1 = 0#1 ∧ field w 8 4 = 0#4 ∧
      regField w 4 = rb ∧ regField w 0 = rd := by
  have hn : w.toNat = 1 * 2 ^ 20 + op * 2 ^ 17 + ra.val * 2 ^ 13 + rb.val * 2 ^ 4 + rd.val := by
    rw [hw, encodeAluReg, BitVec.toNat_ofNat]; omega
  refine ⟨?_, regField_eq_iff.mpr ?_, field_eq_ofNat_iff.mpr ?_, field_eq_ofNat_iff.mpr ?_, regField_eq_iff.mpr ?_,
    regField_eq_iff.mpr ?_⟩ <;> omega

theorem encodeAluImm_fields {op : Nat} (hop : op < 8) {rd ra : RegIdx} {k8 : BitVec 8} {w : InstrWord}
    (hw : w = encodeAluImm op rd ra k8) :
    w.toNat / 2 ^ 17 % 32 = 8 + op ∧ regField w 13 = ra ∧ field w 12 1 = 1#1 ∧ field w 4 8 = k8 ∧
      regField w 0 = rd := by
  have hn : w.toNat = 1 * 2 ^ 20 + op * 2 ^ 17 + ra.val * 2 ^ 13 + 1 * 2 ^ 12 + k8.toNat * 2 ^ 4 + rd.val := by
    rw [hw, encodeAluImm, BitVec.toNat_ofNat]; omega
  refine ⟨?_, regField_eq_iff.mpr ?_, field_eq_ofNat_iff.mpr ?_, field_eq_iff.mpr ?_, regField_eq_iff.mpr ?_⟩ <;> omega

theorem encodeAluShort_fields {nO x : Nat} (hO : nO < 2) (hx : x < 2) {rd ra rb : RegIdx} {nA nB : Bool}
    {w : InstrWord} (hw : w = encodeAluShort nO x rd ra rb nA nB) :
    w.toNat / 2 ^ 17 % 32 = 8 + 3 ∧ regField w 13 = ra ∧ field w 12 1 = 0#1 ∧ (field w 11 1).toNat = nO ∧
      (field w 10 1 == 1#1) = nB ∧ (field w 9 1 == 1#1) = nA ∧ (field w 8 1).toNat = x ∧
      regField w 4 = rb ∧ regField w 0 = rd := by
  have hA := nA.toNat_lt
  have hB := nB.toNat_lt
  have hn : w.toNat = 1 * 2 ^ 20 + 3 * 2 ^ 17 + ra.val * 2 ^ 13 + nO * 2 ^ 11 + nB.toNat * 2 ^ 10 + nA.toNat * 2 ^ 9
      + x * 2 ^ 8 + rb.val * 2 ^ 4 + rd.val := by
    rw [hw, encodeAluShort, BitVec.toNat_ofNat]; omega
  have hfA : field w 9 1 = BitVec.ofNat 1 nA.toNat := field_eq_ofNat_iff.mpr (by omega)
  have hfB : field w 10 1 = BitVec.ofNat 1 nB.toNat := field_eq_ofNat_iff.mpr (by omega)
  rw [field_toNat, field_toNat]
  refine ⟨?_, regField_eq_iff.mpr ?_, field_eq_ofNat_iff.mpr ?_, ?_, ?negB, ?negA, ?_, regField_eq_iff.mpr ?_,
    regField_eq_iff.mpr ?_⟩
  case negA => rw [hfA]; cases nA <;> rfl
  case negB => rw [hfB]; cases nB <;> rfl
  all_goals omega

theorem encodeMisc_fields {op : Nat} (hop : op < 16) {rd ra rb : RegIdx} {w : InstrWord}
    (hw : w = encodeMisc op rd ra rb) :
    w.toNat / 2 ^ 17 % 32 = 8 ∧ regField w 13 = ra ∧ (field w 10 3).toNat < 4 ∧ (field w 8 5).toNat = op ∧
      regField w 4 = rb ∧ regField w 0 = rd := by
  have hn : w.toNat = 1 * 2 ^ 20 + ra.val * 2 ^ 13 + op * 2 ^ 8 + rb.val * 2 ^ 4 + rd.val := by
    rw [hw, encodeMisc, BitVec.toNat_ofNat]; omega
  rw [field_toNat, field_toNat]
  refine ⟨?_, regField_eq_iff.mpr ?_, ?_, ?_, regField_eq_iff.mpr ?_, regField_eq_iff.mpr ?_⟩ <;> omega

theorem encodeScaled_fields {op : Nat} (hop : op < 8) {rd rp : RegIdx} {sc : BitVec 2} {off4 : BitVec 4}
    {w : InstrWord} (hw : w = encodeScaled op rd rp sc off4) :
    w.toNat / 2 ^ 17 % 32 = 8 ∧ regField w 13 = rp ∧ (field w 10 3).toNat = op ∧ field w 8 2 = sc ∧
      field w 4 4 = off4 ∧ regField w 0 = rd := by
  have hn : w.toNat = 1 * 2 ^ 20 + rp.val * 2 ^ 13 + op * 2 ^ 10 + sc.toNat * 2 ^ 8 + off4.toNat * 2 ^ 4 + rd.val := by
    rw [hw, encodeScaled, BitVec.toNat_ofNat]; omega
  rw [field_toNat]
  refine ⟨?_, regField_eq_iff.mpr ?_, ?_, field_eq_iff.mpr ?_, field_eq_iff.mpr ?_, regField_eq_iff.mpr ?_⟩ <;> omega

theorem encodeOffset_fields {op : Nat} (hop : op < 8) {rd rp : RegIdx} {off6 : BitVec 6} {w : InstrWord}
    (hw : w = encodeOffset op rd rp off6) :
    w.toNat / 2 ^ 17 % 32 = 8 ∧ regField w 13 = rp ∧ (field w 10 3).toNat = op ∧ field w 4 6 = off6 ∧
      regField w 0 = rd := by
  have hn : w.toNat = 1 * 2 ^ 20 + rp.val * 2 ^ 13 + op * 2 ^ 10 + off6.toNat * 2 ^ 4 + rd.val := by
    rw [hw, encodeOffset, BitVec.toNat_ofNat]; omega
  rw [field_toNat]
  refine ⟨?_, regField_eq_iff.mpr ?_, ?_, field_eq_iff.mpr ?_, regField_eq_iff.mpr ?_⟩ <;> omega

/-- Settles O1, format by format: the class and the operation codes in the word select the instruction, and its fields
are the operands. -/
theorem decodeOfEncode : Obligations.DecodeOfEncode := by
  unfold Obligations.DecodeOfEncode
  intro i hi
  obtain ⟨w, hw⟩ : ∃ w, w = encode i := ⟨_, rfl⟩
  rw [← hw]
  cases i with
  | nop | hlt => rw [hw]; rfl
  | jmp k16 =>
    obtain ⟨hclass, hk, hd⟩ := encodeImm_fields (by decide) hw
    have hne : w ≠ 0x000000#22 := by
      rintro rfl
      exact absurd hd (by decide)
    rw [decode_class_zero hclass, if_neg hne, if_pos hd, hk]
  | mov rd k16 =>
    obtain ⟨hclass, hk, hd⟩ := encodeImm_fields (by decide) hw
    obtain ⟨hpc, hzero⟩ : rd ≠ 7 ∧ ¬ (rd = 0 ∧ k16 = 0#16) := of_decide_eq_true hi
    have hne : w ≠ 0x000000#22 := by
      rintro rfl
      exact hzero ⟨hd.symm, hk.symm⟩
    rw [decode_class_zero hclass, if_neg hne, hd, if_neg hpc, hk]
  | call k16 =>
    obtain ⟨hclass, hk, hd⟩ := encodeImm_fields (by decide) hw
    rw [decode_class_three hclass, if_pos hd, hk]
  | jge r1 r2 off8 | jl r1 r2 off8 | je r1 r2 off8 | jne r1 r2 off8 | jae r1 r2 off8 | jb r1 r2 off8
  | ijne r1 r2 off8 | djge r1 r2 off8 =>
    obtain ⟨hclass, hcond, h2, hpad, hoff, h1⟩ := encodeBranch_fields (by decide) hw
    rw [decode_class_two hclass]
    simp [decodeBranch, hcond, h2, hpad, hoff, h1]
  | add rd ra rb | sub rd ra rb | asr rd ra rb | lsr rd ra rb | lsl rd ra rb | mul rd ra rb =>
    obtain ⟨hop, ha, hform, hunused, hb, hd⟩ := encodeAluReg_fields (by decide) hw
    obtain ⟨hdecode, hsec⟩ := decode_secondary hop (by decide) (by decide)
    rw [hdecode]
    simp [decodeAluMisc, hsec, decodeAluLong, ha, hform, hunused, hb, hd]
  | addi rd ra k8 | subi rd ra k8 | asri rd ra k8 | lsri rd ra k8 | lsli rd ra k8 | muli rd ra k8 =>
    obtain ⟨hop, ha, hform, hk, hd⟩ := encodeAluImm_fields (by decide) hw
    obtain ⟨hdecode, hsec⟩ := decode_secondary hop (by decide) (by decide)
    rw [hdecode]
    simp [decodeAluMisc, hsec, decodeAluLong, ha, hform, hk, hd]
  | or rd ra rb nA nB | xor rd ra rb nA nB | nor rd ra rb nA nB | xnor rd ra rb nA nB =>
    obtain ⟨hop, ha, hpad, hO, hnB, hnA, hx, hb, hd⟩ :=
      encodeAluShort_fields (by decide) (by decide) hw
    obtain ⟨hdecode, hsec⟩ := decode_secondary hop (by decide) (by decide)
    rw [hdecode]
    simp [decodeAluMisc, hsec, decodeAluShort, ha, hpad, hO, hnB, hnA, hx, hb, hd]
  | ldx rd rp sc off4 | stx rd rp sc off4 =>
    obtain ⟨hsec, hp, hop, hsc, hoff, hd⟩ := encodeScaled_fields (by decide) hw
    rw [decode_misc hsec (ne_hlt_of_subop3 (by simp [hop]))]
    simp [decodeMisc, hop, hp, hsc, hoff, hd]
  | ld rd rp off6 | st rd rp off6 =>
    obtain ⟨hsec, hp, hop, hoff, hd⟩ := encodeOffset_fields (by decide) hw
    rw [decode_misc hsec (ne_hlt_of_subop3 (by simp [hop]))]
    simp [decodeMisc, hop, hp, hoff, hd]
  | fadd | fsub | fmul | fdiv | ftoi | itof | utof | push | pop =>
    obtain ⟨hsec, ha, hlow, hop, hb, hd⟩ := encodeMisc_fields (by decide) hw
    rw [decode_miscOp hsec (ne_hlt_of_subop5 (by simp [hop])) hlow]
    simp [decodeMiscOp, hop, ha, hb, hd]
  | int n =>
    obtain ⟨hsec, ha, hlow, hop, hb, hd⟩ := encodeMisc_fields (by decide) hw
    have hn : field w 0 4 = n := congrArg BitVec.ofFin hd
    have hhlt : w ≠ 0x100400#22 := by
      rintro rfl
      exact of_decide_eq_true hi hn.symm
    rw [decode_miscOp hsec hhlt hlow]
    simp [decodeMiscOp, hop, ha, hb, hn]

/-! The fields of a word encode to the word (R83 to R90) -/

section
variable {w : InstrWord}

theorem encodeImm_of_fields {p : Nat} (hclass : w.toNat / 2 ^ 20 % 4 = p) :
    encodeImm p (field w 4 16) (regField w 0) = w := by
  apply BitVec.eq_of_toNat_eq
  rw [encodeImm, BitVec.toNat_ofNat, field_toNat, regField_val]
  omega

theorem encodeBranch_of_fields {cond : Nat} (hclass : w.toNat / 2 ^ 20 % 4 = 2) (hcond : (field w 17 3).toNat = cond)
    (hpad : field w 12 1 = 0#1) : encodeBranch cond (regField w 0) (regField w 13) (field w 4 8) = w := by
  apply BitVec.eq_of_toNat_eq
  rw [field_toNat] at hcond
  rw [field_eq_ofNat_iff] at hpad
  rw [encodeBranch, BitVec.toNat_ofNat, field_toNat, regField_val, regField_val]
  omega

theorem encodeAluReg_of_fields {op : Nat} (hclass : w.toNat / 2 ^ 20 % 4 = 1) (hop : (field w 17 3).toNat = op)
    (hform : field w 12 1 ≠ 1#1) (hunused : field w 8 4 = 0#4) :
    encodeAluReg op (regField w 0) (regField w 13) (regField w 4) = w := by
  apply BitVec.eq_of_toNat_eq
  rw [field_toNat] at hop
  rw [ne_eq, field_eq_ofNat_iff] at hform
  rw [field_eq_ofNat_iff] at hunused
  rw [encodeAluReg, BitVec.toNat_ofNat, regField_val, regField_val, regField_val]
  omega

theorem encodeAluImm_of_fields {op : Nat} (hclass : w.toNat / 2 ^ 20 % 4 = 1) (hop : (field w 17 3).toNat = op)
    (hform : field w 12 1 = 1#1) : encodeAluImm op (regField w 0) (regField w 13) (field w 4 8) = w := by
  apply BitVec.eq_of_toNat_eq
  rw [field_toNat] at hop
  rw [field_eq_ofNat_iff] at hform
  rw [encodeAluImm, BitVec.toNat_ofNat, field_toNat, regField_val, regField_val]
  omega

/-- A one-bit field as the flag it is read as. -/
theorem toNat_field_beq_one (lo : Nat) : (field w lo 1 == 1#1).toNat = w.toNat / 2 ^ lo % 2 := by
  rw [← Nat.pow_one 2, ← field_toNat]
  generalize field w lo 1 = b
  revert b
  decide

theorem encodeAluShort_of_fields {nO x : Nat} (hclass : w.toNat / 2 ^ 20 % 4 = 1) (hop : (field w 17 3).toNat = 3)
    (hpad : field w 12 1 = 0#1) (hO : (field w 11 1).toNat = nO) (hx : (field w 8 1).toNat = x) :
    encodeAluShort nO x (regField w 0) (regField w 13) (regField w 4) (field w 9 1 == 1#1) (field w 10 1 == 1#1) =
      w := by
  apply BitVec.eq_of_toNat_eq
  rw [field_toNat] at hop hO hx
  rw [field_eq_ofNat_iff] at hpad
  rw [encodeAluShort, BitVec.toNat_ofNat, toNat_field_beq_one, toNat_field_beq_one, regField_val, regField_val,
    regField_val]
  omega

theorem encodeMisc_of_fields {op : Nat} (hsec : w.toNat / 2 ^ 17 % 32 = 8) (hop : (field w 8 5).toNat = op) :
    encodeMisc op (regField w 0) (regField w 13) (regField w 4) = w := by
  apply BitVec.eq_of_toNat_eq
  rw [field_toNat] at hop
  rw [encodeMisc, BitVec.toNat_ofNat, regField_val, regField_val, regField_val]
  omega

theorem encodeScaled_of_fields {op : Nat} (hsec : w.toNat / 2 ^ 17 % 32 = 8) (hop : (field w 10 3).toNat = op) :
    encodeScaled op (regField w 0) (regField w 13) (field w 8 2) (field w 4 4) = w := by
  apply BitVec.eq_of_toNat_eq
  rw [field_toNat] at hop
  rw [encodeScaled, BitVec.toNat_ofNat, regField_val, regField_val, field_toNat, field_toNat]
  omega

theorem encodeOffset_of_fields {op : Nat} (hsec : w.toNat / 2 ^ 17 % 32 = 8) (hop : (field w 10 3).toNat = op) :
    encodeOffset op (regField w 0) (regField w 13) (field w 4 6) = w := by
  apply BitVec.eq_of_toNat_eq
  rw [field_toNat] at hop
  rw [encodeOffset, BitVec.toNat_ofNat, regField_val, regField_val, field_toNat]
  omega

end

/-! A word that a decoder accepts is the encoding of the answer -/

/-- `i` is a well-formed reading of `w`. -/
def Encodes (i : Instr) (w : InstrWord) : Prop := encode i = w ∧ i.wellFormed = true

theorem decodeBranch_encodes {w : InstrWord} {i : Instr} (hclass : w.toNat / 2 ^ 20 % 4 = 2)
    (h : decodeBranch w = .ok i) : Encodes i w := by
  simp only [decodeBranch] at h
  split at h
  · cases h
  next hpad =>
    have hlt := (field w 17 3).isLt
    generalize hcond : (field w 17 3).toNat = cond at h hlt
    interval_cases cond <;> cases h <;> exact ⟨encodeBranch_of_fields hclass hcond (not_not.mp hpad), rfl⟩

theorem decodeAluLong_encodes {w : InstrWord} {i : Instr} {reg : RegIdx → RegIdx → RegIdx → Instr}
    {imm : RegIdx → RegIdx → BitVec 8 → Instr} {op : Nat} (hclass : w.toNat / 2 ^ 20 % 4 = 1)
    (hop : (field w 17 3).toNat = op)
    (hreg : ∀ rd ra rb, encode (reg rd ra rb) = encodeAluReg op rd ra rb ∧ (reg rd ra rb).wellFormed = true)
    (himm : ∀ rd ra k8, encode (imm rd ra k8) = encodeAluImm op rd ra k8 ∧ (imm rd ra k8).wellFormed = true)
    (h : decodeAluLong reg imm w = .ok i) : Encodes i w := by
  simp only [decodeAluLong] at h
  split at h
  · next hform =>
    cases h
    obtain ⟨hencode, hwf⟩ := himm (regField w 0) (regField w 13) (field w 4 8)
    exact ⟨hencode.trans (encodeAluImm_of_fields hclass hop hform), hwf⟩
  next hform =>
    split at h
    · cases h
    next hunused =>
      cases h
      obtain ⟨hencode, hwf⟩ := hreg (regField w 0) (regField w 13) (regField w 4)
      exact ⟨hencode.trans (encodeAluReg_of_fields hclass hop hform (not_not.mp hunused)), hwf⟩

theorem decodeAluShort_encodes {w : InstrWord} {i : Instr} (hclass : w.toNat / 2 ^ 20 % 4 = 1)
    (hop : (field w 17 3).toNat = 3) (h : decodeAluShort w = .ok i) : Encodes i w := by
  simp only [decodeAluShort] at h
  split at h
  · cases h
  next hpad =>
    have hOlt := (field w 11 1).isLt
    have hxlt := (field w 8 1).isLt
    generalize hO : (field w 11 1).toNat = nO at h hOlt
    generalize hx : (field w 8 1).toNat = x at h hxlt
    interval_cases nO <;> interval_cases x <;> cases h <;>
      exact ⟨encodeAluShort_of_fields hclass hop (not_not.mp hpad) hO hx, rfl⟩

theorem decodeMiscOp_encodes {w : InstrWord} {i : Instr} (hsec : w.toNat / 2 ^ 17 % 32 = 8) (hhlt : w ≠ 0x100400#22)
    (h : decodeMiscOp w = .ok i) : Encodes i w := by
  simp only [decodeMiscOp] at h
  split at h
  case h_4 hop | h_5 hop | h_6 hop | h_7 hop =>
    cases h
    exact ⟨encodeMisc_of_fields hsec hop, rfl⟩
  case h_11 => cases h
  case h_1 hop | h_2 hop =>
    have hw := encodeMisc_of_fields hsec hop
    split at h <;> cases h
    next hunused =>
      rw [hunused.1, hunused.2] at hw
      exact ⟨hw, rfl⟩
  case h_3 hop =>
    have hw := encodeMisc_of_fields hsec hop
    split at h <;> cases h
    next hunused =>
      rw [hunused.1, hunused.2] at hw
      have hn : field w 0 4 ≠ 0#4 := by
        intro hzero
        have hrd : regField w 0 = 0 := congrArg BitVec.toFin hzero
        rw [hrd] at hw
        exact hhlt hw.symm
      exact ⟨hw, decide_eq_true hn⟩
  case h_8 hop | h_9 hop | h_10 hop =>
    have hw := encodeMisc_of_fields hsec hop
    split at h <;> cases h
    next hunused =>
      rw [hunused] at hw
      exact ⟨hw, rfl⟩

theorem decodeMisc_encodes {w : InstrWord} {i : Instr} (hsec : w.toNat / 2 ^ 17 % 32 = 8) (hhlt : w ≠ 0x100400#22)
    (h : decodeMisc w = .ok i) : Encodes i w := by
  simp only [decodeMisc] at h
  split at h
  case h_1 hop | h_2 hop =>
    cases h
    exact ⟨encodeScaled_of_fields hsec hop, rfl⟩
  case h_3 hop | h_4 hop =>
    cases h
    exact ⟨encodeOffset_of_fields hsec hop, rfl⟩
  case h_5 => exact decodeMiscOp_encodes hsec hhlt h

theorem decodeAluMisc_encodes {w : InstrWord} {i : Instr} (hclass : w.toNat / 2 ^ 20 % 4 = 1) (hhlt : w ≠ 0x100400#22)
    (h : decodeAluMisc w = .ok i) : Encodes i w := by
  have hlt := (field w 17 3).isLt
  simp only [decodeAluMisc] at h
  generalize hop : (field w 17 3).toNat = op at h hlt
  interval_cases op
  on_goal 4 => exact decodeAluShort_encodes hclass hop h
  on_goal 1 =>
    rw [field_toNat] at hop
    exact decodeMisc_encodes (by omega) hhlt h
  all_goals exact decodeAluLong_encodes hclass hop (fun _ _ _ => ⟨rfl, rfl⟩) (fun _ _ _ => ⟨rfl, rfl⟩) h

/-- Settles O2, class by class. -/
theorem encodeOfDecode : Obligations.EncodeOfDecode := by
  unfold Obligations.EncodeOfDecode
  intro w i h
  obtain hclass | hclass | hclass | hclass : w.toNat / 2 ^ 20 % 4 = 0 ∨ w.toNat / 2 ^ 20 % 4 = 1 ∨
      w.toNat / 2 ^ 20 % 4 = 2 ∨ w.toNat / 2 ^ 20 % 4 = 3 := by omega
  · have hw := encodeImm_of_fields hclass
    rw [decode_class_zero hclass] at h
    split at h
    · next hnop => cases h; exact ⟨hnop.symm, rfl⟩
    next hnop =>
      split at h
      · next hpc => cases h; rw [hpc] at hw; exact ⟨hw, rfl⟩
      next hpc =>
        cases h
        have hzero : ¬ (regField w 0 = 0 ∧ field w 4 16 = 0#16) := by
          rintro ⟨hrd, hk⟩
          rw [hrd, hk] at hw
          exact hnop hw.symm
        exact ⟨hw, decide_eq_true ⟨hpc, hzero⟩⟩
  · rw [decode_class_one hclass] at h
    split at h
    · next hhlt => cases h; exact ⟨hhlt.symm, rfl⟩
    · next hhlt => exact decodeAluMisc_encodes hclass hhlt h
  · rw [decode_class_two hclass] at h
    exact decodeBranch_encodes hclass h
  · have hw := encodeImm_of_fields hclass
    rw [decode_class_three hclass] at h
    split at h <;> cases h
    next hpc => rw [hpc] at hw; exact ⟨hw, rfl⟩

/-! Which words each decoder rejects (R98, R102) -/

section
variable {w : InstrWord}

theorem field_eq_ofNat_iff_toNat {lo n k : Nat} :
    field w lo n = BitVec.ofNat n k ↔ (field w lo n).toNat = k % 2 ^ n := by
  rw [← BitVec.toNat_inj, BitVec.toNat_ofNat]

theorem regField_eq_iff_toNat {lo : Nat} {r : RegIdx} : regField w lo = r ↔ (field w lo 4).toNat = r.val := Fin.ext_iff

theorem decodeBranch_rejects_iff : (∃ r, decodeBranch w = .error r) ↔ (field w 12 1).toNat = 1 := by
  have hbit := (field w 12 1).isLt
  have hlt := (field w 17 3).isLt
  simp only [decodeBranch, ne_eq, field_eq_ofNat_iff_toNat]
  split
  · next hpad => exact ⟨fun _ => by omega, fun _ => ⟨_, rfl⟩⟩
  · next hpad =>
    generalize (field w 17 3).toNat = cond at hlt
    interval_cases cond <;> simp <;> omega

theorem decodeAluLong_rejects_iff {reg : RegIdx → RegIdx → RegIdx → Instr}
    {imm : RegIdx → RegIdx → BitVec 8 → Instr} :
    (∃ r, decodeAluLong reg imm w = .error r) ↔ (field w 12 1).toNat = 0 ∧ (field w 8 4).toNat ≠ 0 := by
  have hbit := (field w 12 1).isLt
  simp only [decodeAluLong, ne_eq, field_eq_ofNat_iff_toNat]
  split
  · next hform => simp; omega
  split
  · next hform hop => exact ⟨fun _ => by omega, fun _ => ⟨_, rfl⟩⟩
  · next hform hop => simp; omega

theorem decodeAluShort_rejects_iff : (∃ r, decodeAluShort w = .error r) ↔ (field w 12 1).toNat = 1 := by
  have hbit := (field w 12 1).isLt
  simp only [decodeAluShort, ne_eq, field_eq_ofNat_iff_toNat]
  split
  · next hpad => exact ⟨fun _ => by omega, fun _ => ⟨_, rfl⟩⟩
  · next hpad => split <;> simp <;> omega

theorem exists_ite_error_iff {c : Prop} [Decidable c] {i : Instr} {e : DecodeReject} :
    (∃ r, (if c then Except.ok i else Except.error e : Except DecodeReject Instr) = .error r) ↔ ¬ c := by
  split <;> simp [*]

theorem decodeMiscOp_rejects_iff (hlow : (field w 8 5).toNat < 16) :
    (∃ r, decodeMiscOp w = .error r) ↔
      (field w 8 5).toNat ∈ [2, 3, 5, 6, 7, 15] ∨
      ((field w 8 5).toNat = 0 ∧ ((field w 4 4).toNat ≠ 0 ∨ (field w 0 4).toNat ≠ 0)) ∨
      ((field w 8 5).toNat ∈ [1, 4] ∧ ((field w 13 4).toNat ≠ 0 ∨ (field w 4 4).toNat ≠ 0)) ∨
      ((field w 8 5).toNat ∈ [12, 13, 14] ∧ (field w 4 4).toNat ≠ 0) := by
  simp only [decodeMiscOp, regField_eq_iff_toNat]
  generalize (field w 8 5).toNat = op at hlow
  interval_cases op <;> simp [exists_ite_error_iff, imp_iff_not_or]

theorem decodeMisc_rejects_iff :
    (∃ r, decodeMisc w = .error r) ↔ (field w 10 3).toNat < 4 ∧ ∃ r, decodeMiscOp w = .error r := by
  have hlt := (field w 10 3).isLt
  simp only [decodeMisc]
  generalize (field w 10 3).toNat = op at hlt
  interval_cases op <;> simp

end

/-- Settles O3, class by class, by what each decoder rejects. -/
theorem reservedWordsRejected : Obligations.ReservedWordsRejected := by
  unfold Obligations.ReservedWordsRejected
  intro w
  simp only [← field_toNat]
  have hlt := (field w 20 2).isLt
  have hnum := field_toNat w 20 2
  generalize (field w 20 2).toNat = c at hlt hnum
  interval_cases c
  · rw [decode_class_zero hnum.symm]
    split
    · simp
    · split <;> simp
  · rw [decode_class_one hnum.symm]
    split
    · next hhlt =>
      subst hhlt
      exact iff_of_false (by simp) (by decide)
    next hhlt =>
      have hop := (field w 17 3).isLt
      simp only [decodeAluMisc]
      generalize (field w 17 3).toNat = op at hop
      interval_cases op
      on_goal 4 => simp [decodeAluShort_rejects_iff]
      on_goal 1 =>
        have hsub : (field w 10 3).toNat < 4 → (field w 8 5).toNat < 16 := by
          rw [field_toNat, field_toNat]; omega
        have hiff := decodeMisc_rejects_iff.trans (and_congr_right fun hlow => decodeMiscOp_rejects_iff (hsub hlow))
        simpa using hiff
      all_goals simp [decodeAluLong_rejects_iff]
  · simp [decode_class_two hnum.symm, decodeBranch_rejects_iff]
  · rw [decode_class_three hnum.symm, exists_ite_error_iff, regField_eq_iff_toNat]
    simp

/-- Settles O4: the decoder computes on closed words. -/
theorem exampleWordsDecode : Obligations.ExampleWordsDecode := by
  unfold Obligations.ExampleWordsDecode
  decide

end Sys2Proof
end

section
/-! What an instruction that completes can have done to the state: obligations O17 to O21. -/

namespace Sys2Proof.Machine

/-! Register writes within a set of registers -/

/-- `t` is `s` but for the registers of `W`, `pcw` and the count of free values. -/
structure WritesWithin (W : List RegIdx) (s t : State) : Prop where
  read : ∀ j, j ∉ W → t.read j = s.read j
  ram : t.ram = s.ram
  log : t.log = s.log
  running : t.running = s.running

section
variable {W : List RegIdx} {s t : State}

theorem WritesWithin.refl (W : List RegIdx) (s : State) : WritesWithin W s s := ⟨fun _ _ => rfl, rfl, rfl, rfl⟩

theorem WritesWithin.write (h : WritesWithin W s t) {i : RegIdx} (hi : i ∈ W) (v : Word) :
    WritesWithin W s (t.write i v) where
  read j hj := by
    have hne : j ≠ i := by rintro rfl; exact hj hi
    rw [State.read_write_ne t i j v hne, h.read j hj]
  ram := (t.write_ram i v).trans h.ram
  log := (t.write_log i v).trans h.log
  running := (t.write_running i v).trans h.running

theorem WritesWithin.draw (h : WritesWithin W s t) : WritesWithin W s { t with draws := t.draws + 1 } :=
  ⟨h.read, h.ram, h.log, h.running⟩

theorem WritesWithin.writeAddSub (h : WritesWithin W s t) {rd : RegIdx} (hrd : rd ∈ W) (h8 : 8 ∈ W) (r f : Word) :
    WritesWithin W s (t.writeAddSub rd r f) := by
  unfold State.writeAddSub
  split
  · exact (h.write hrd r).write h8 f
  · exact (h.write h8 f).write hrd r

theorem WritesWithin.writeHalf (h : WritesWithin W s t) {rd : RegIdx} (hrd : rd ∈ W) (r : Option Word) :
    WritesWithin W s (t.writeHalf rd r) := by
  rcases t.writeHalf_cases rd r with ⟨v, _, ht⟩ | ⟨_, ht⟩ <;> rw [ht]
  · exact h.write hrd v
  · exact h.draw.write hrd _

theorem WritesWithin.branchIf (h : WritesWithin W s t) (h7 : 7 ∈ W) (c : Word → Word → Bool) (r1 r2 : RegIdx)
    (off8 : BitVec 8) : WritesWithin W s (t.branchIf c r1 r2 off8) := by
  rcases t.branchIf_cases c r1 r2 off8 with ⟨_, ht⟩ | ⟨_, ht⟩ <;> rw [ht]
  · exact h.write h7 _
  · exact h

theorem WritesWithin.loadInto {u : State} (h : WritesWithin W s t) {rd : RegIdx} (hrd : rd ∈ W) {a : Word}
    (hu : t.loadInto rd a = .next u) : WritesWithin W s u := by
  obtain ⟨v, _, rfl⟩ := State.loadInto_next.mp hu
  exact h.write hrd v

end

/-! What a completing instruction does -/

/-- The registers an instruction may write. -/
def writeSet : Instr → List RegIdx
  | .mov rd _ | .asr rd _ _ | .asri rd _ _ | .lsr rd _ _ | .lsri rd _ _ | .lsl rd _ _ | .lsli rd _ _ | .mul rd _ _
  | .muli rd _ _ | .or rd _ _ _ _ | .xor rd _ _ _ _ | .nor rd _ _ _ _ | .xnor rd _ _ _ _ | .fadd rd _ _
  | .fsub rd _ _ | .fmul rd _ _ | .fdiv rd _ _ | .ftoi rd _ | .itof rd _ | .utof rd _ | .ldx rd _ _ _ | .ld rd _ _ =>
    [rd]
  | .add rd _ _ | .addi rd _ _ | .sub rd _ _ | .subi rd _ _ => [rd, 8]
  | .jmp _ | .jge _ _ _ | .jl _ _ _ | .je _ _ _ | .jne _ _ _ | .jae _ _ _ | .jb _ _ _ => [7]
  | .ijne _ _ _ | .djge _ _ _ => [1, 7]
  | .push _ => [15]
  | .pop rd => [15, rd]
  | .call _ => [15, 7]
  | .nop | .int _ | .hlt | .stx _ _ _ _ | .st _ _ _ => []

/-- `i` halts the core in state `s` (R216 to R219, D35). -/
def Halts (i : Instr) (s : State) : Prop := i = .hlt ∨ i = .int 0#4 ∨ (i = .nop ∧ s.cfg.haltOnNop = true)

theorem State.memWrite_read {s t : State} {a v : Word} (h : s.memWrite a v = .ok t) (i : RegIdx) :
    t.read i = s.read i := by
  rcases State.memWrite_ok h with rfl | ⟨_, k, rfl⟩ | ⟨_, rfl⟩ <;> rfl

theorem State.memWrite_running {s t : State} {a v : Word} (h : s.memWrite a v = .ok t) : t.running = s.running := by
  rcases State.memWrite_ok h with rfl | ⟨_, k, rfl⟩ | ⟨_, rfl⟩ <;> rfl

/-- An instruction that completes halts the core, or writes registers only, or makes one store and then writes
registers. -/
theorem exec_next_cases {i : Instr} {s t : State} (h : exec i s = .next t) :
    (Halts i s ∧ Claims.isStore i = false ∧ t = s.halt) ∨
    (¬ Halts i s ∧ Claims.isStore i = false ∧ WritesWithin (writeSet i) s t) ∨
    (¬ Halts i s ∧ Claims.isStore i = true ∧
      ∃ a v u, s.memWrite a v = .ok u ∧ WritesWithin (writeSet i) u t) := by
  cases i with
  | hlt => cases h; exact .inl ⟨.inl rfl, rfl, rfl⟩
  | int n =>
    cases h
    split
    · next hn => subst hn; exact .inl ⟨.inr (.inl rfl), rfl, rfl⟩
    · next hn => exact .inr (.inl ⟨by simpa [Halts] using hn, rfl, .refl _ s⟩)
  | nop =>
    cases h
    split
    · next hn => exact .inl ⟨.inr (.inr ⟨rfl, hn⟩), rfl, rfl⟩
    · next hn => exact .inr (.inl ⟨by simpa [Halts] using hn, rfl, .refl _ s⟩)
  | mov | jmp | asr | asri | lsr | lsri | lsl | lsli | mul | muli | or | xor | nor | xnor | itof | utof =>
    cases h
    exact .inr (.inl ⟨by simp [Halts], rfl, (WritesWithin.refl _ s).write (by simp [writeSet]) _⟩)
  | add | addi | sub | subi =>
    cases h
    exact .inr (.inl ⟨by simp [Halts], rfl,
      (WritesWithin.refl _ s).writeAddSub (by simp [writeSet]) (by simp [writeSet]) _ _⟩)
  | fadd | fsub | fmul | fdiv =>
    cases h
    exact .inr (.inl ⟨by simp [Halts], rfl, (WritesWithin.refl _ s).writeHalf (by simp [writeSet]) _⟩)
  | jge | jl | je | jne | jae | jb =>
    cases h
    exact .inr (.inl ⟨by simp [Halts], rfl, (WritesWithin.refl _ s).branchIf (by simp [writeSet]) _ _ _ _⟩)
  | ijne | djge =>
    cases h
    exact .inr (.inl ⟨by simp [Halts], rfl,
      ((WritesWithin.refl _ s).write (by simp [writeSet]) _).branchIf (by simp [writeSet]) _ _ _ _⟩)
  | ldx | ld => exact .inr (.inl ⟨by simp [Halts], rfl, (WritesWithin.refl _ s).loadInto (by simp [writeSet]) h⟩)
  | pop =>
    exact .inr (.inl ⟨by simp [Halts], rfl,
      ((WritesWithin.refl _ s).write (by simp [writeSet]) _).loadInto (by simp [writeSet]) h⟩)
  | ftoi =>
    simp only [exec, execFtoi] at h
    split at h <;> cases h
    exact .inr (.inl ⟨by simp [Halts], rfl, (WritesWithin.refl _ s).write (by simp [writeSet]) _⟩)
  | stx | st => exact .inr (.inr ⟨by simp [Halts], rfl, _, _, t, State.storeAt_next.mp h, .refl _ t⟩)
  | push =>
    simp only [exec, execPush] at h
    split at h <;> cases h
    next hpush =>
      obtain ⟨u, hu, rfl⟩ := State.pushWord_ok.mp hpush
      exact .inr (.inr ⟨by simp [Halts], rfl, _, _, u, hu, (WritesWithin.refl _ u).write (by simp [writeSet]) _⟩)
  | call =>
    simp only [exec, execCall] at h
    split at h <;> cases h
    next hpush =>
      obtain ⟨u, hu, rfl⟩ := State.pushWord_ok.mp hpush
      exact .inr (.inr ⟨by simp [Halts], rfl, _, _, u, hu,
        ((WritesWithin.refl _ u).write (by simp [writeSet]) _).write (by simp [writeSet]) _⟩)

/-- An instruction clears `running` exactly where it halts, and then does nothing else. -/
theorem exec_running {i : Instr} {s t : State} (h : exec i s = .next t) :
    (Halts i s ∧ t = s.halt) ∨ (¬ Halts i s ∧ t.running = s.running) := by
  rcases exec_next_cases h with ⟨hh, _, ht⟩ | ⟨hh, _, hw⟩ | ⟨hh, _, a, v, u, hu, hw⟩
  · exact .inl ⟨hh, ht⟩
  · exact .inr ⟨hh, hw.running⟩
  · exact .inr ⟨hh, hw.running.trans (State.memWrite_running hu)⟩

theorem exec_halted {i : Instr} {s t : State} (h : exec i s = .next t) (hs : s.running = true)
    (ht : t.running = false) : t = s.halt := by
  rcases exec_running h with ⟨_, hhalt⟩ | ⟨_, hsame⟩
  · exact hhalt
  · rw [hsame, hs] at ht; cases ht

/-- Settles O17: hlt, int 0 and the halting nop clear `running`, and nothing sets it. -/
theorem runningClearedOnlyByHalt : Obligations.RunningClearedOnlyByHalt := by
  unfold Obligations.RunningClearedOnlyByHalt
  refine ⟨rfl, fun s t hstep ht => ?tick, fun i s t h hs => ?clears⟩
  case tick =>
    rcases step_cases hstep with ⟨_, rfl⟩ | ⟨_, hs, _⟩
    · exact ht
    · exact hs
  case clears =>
    change t.running = false ↔ Halts i s
    rcases exec_running h with ⟨hh, rfl⟩ | ⟨hh, hsame⟩
    · exact iff_of_true rfl hh
    · exact iff_of_false (by simp [hsame, hs]) hh

/-- FL is written by add and sub only, but for a destination 8. -/
theorem eight_not_mem_writeSet {i : Instr} (hadd : Claims.isAddSub i = false) (hdest : Claims.destOf i ≠ some 8) :
    8 ∉ writeSet i := by
  cases i <;> simp_all [writeSet, Claims.isAddSub, Claims.destOf, eq_comm]

/-- Settles O19: FL is not among the registers written. -/
theorem flagsOnlyFromAddAndSub : Obligations.FlagsOnlyFromAddAndSub := by
  unfold Obligations.FlagsOnlyFromAddAndSub
  intro i s t h hadd hdest
  have hfl := eight_not_mem_writeSet hadd hdest
  rcases exec_next_cases h with ⟨_, _, rfl⟩ | ⟨_, _, hw⟩ | ⟨_, _, a, v, u, hu, hw⟩
  · rfl
  · exact hw.read 8 hfl
  · exact (hw.read 8 hfl).trans (State.memWrite_read hu 8)

/-- Settles O20: an instruction that stores nothing writes registers at most. -/
theorem onlyStoresChangeMemory : Obligations.OnlyStoresChangeMemory := by
  unfold Obligations.OnlyStoresChangeMemory Claims.MemFrame
  intro i s t h hstore
  rcases exec_next_cases h with ⟨_, _, rfl⟩ | ⟨_, _, hw⟩ | ⟨_, hstore', _⟩
  · exact ⟨fun _ => rfl, rfl⟩
  · exact ⟨fun _ => by rw [hw.ram], hw.log⟩
  · rw [hstore] at hstore'; cases hstore'

/-- A store appends one record or none. -/
theorem State.memWrite_log {s t : State} {a v : Word} (h : s.memWrite a v = .ok t) :
    ∃ l, t.log = s.log ++ l ∧ l.length ≤ 1 := by
  rcases State.memWrite_ok h with rfl | ⟨_, k, rfl⟩ | ⟨_, rfl⟩
  · exact ⟨[], by simp⟩
  · exact ⟨[⟨k, v⟩], by simp⟩
  · exact ⟨[], by simp⟩

/-- Settles O21: an instruction makes one store at most. -/
theorem logGrowsByAtMostOne : Obligations.LogGrowsByAtMostOne := by
  unfold Obligations.LogGrowsByAtMostOne
  intro i s t h
  rcases exec_next_cases h with ⟨_, _, rfl⟩ | ⟨_, _, hw⟩ | ⟨_, _, a, v, u, hu, hw⟩
  · exact ⟨[], by simp⟩
  · exact ⟨[], by simp [hw.log]⟩
  · rw [hw.log]
    exact State.memWrite_log hu

/-! PC and `pcw` (R24, R26) -/

/-- Since `s`, PC has changed only with `pcw` set. -/
def PcKept (s t : State) : Prop := t.pcw = false → s.pcw = false ∧ t.read 7 = s.read 7

theorem pcKept_opsKeep (s : State) : OpsKeep (PcKept s) where
  write u i v h hpcw := by
    rw [State.write_pcw, Bool.or_eq_false_iff, decide_eq_false_iff_not] at hpcw
    rw [State.read_write_ne u i 7 v (Ne.symm hpcw.2)]
    exact h hpcw.1
  draw _ h := h
  store u t a v hu h hpcw := by
    have hsame : t.pcw = u.pcw := by
      rcases State.memWrite_ok hu with rfl | ⟨_, k, rfl⟩ | ⟨_, rfl⟩ <;> rfl
    rw [State.memWrite_read hu]
    exact h (hsame ▸ hpcw)
  halt _ h := h

/-- Settles O18: every operation an instruction is made of keeps PC or sets `pcw`. -/
theorem pcChangesOnlyWithPcw : Obligations.PcChangesOnlyWithPcw := by
  unfold Obligations.PcChangesOnlyWithPcw
  intro i s t h hpcw
  exact ((pcKept_opsKeep s).exec h (fun hs => ⟨hs, rfl⟩) hpcw).2

end Sys2Proof.Machine
end

section
/-! How a tick goes, halted, faulted or running (spec/70_reset_and_hazards.md R262 to R264): obligations O7, O9 to O11 and
O13 -/

namespace Sys2Proof.Machine

/-- The end of a halting tick does nothing. -/
theorem State.finishTick_of_halted {s : State} (h : s.running = false) : s.finishTick = s := by
  simp [State.finishTick, h]

/-- Settles O9: the halting instruction only clears `running`, and the end of its tick does nothing. -/
theorem haltingTickParksPc : Obligations.HaltingTickParksPc := by
  unfold Obligations.HaltingTickParksPc
  intro s t w i hs hw hi ht hhalt
  rw [step_of_exec_next hs (State.fetch_of_get hw) hi ht, State.finishTick_of_halted hhalt, exec_halted ht hs.1 hhalt]
  exact ⟨rfl, rfl⟩

/-- A tick of a Halted or Faulted core changes nothing (R264). -/
theorem step_of_stopped {s : State} (h : s.running = false ∨ s.fault.isSome = true) : step s = .next s := by
  have hstop : (s.fault.isSome || !s.running) = true := by
    rcases h with h | h <;> simp [h]
  rw [step, if_pos hstop]

/-- The first step of a run. -/
theorem run_succ_of_step {M : Host.Core} {s t : M.State} (h : M.step s = .next t) (n : Nat) :
    M.run (n + 1) s = M.run n t := by
  simp only [Host.Core.run, h]

/-- Settles O10, by induction on the number of ticks. -/
theorem stoppedCoreStaysUnchanged : Obligations.StoppedCoreStaysUnchanged := by
  unfold Obligations.StoppedCoreStaysUnchanged
  intro n s h
  induction n with
  | zero => rfl
  | succ n ih =>
    have hstep : core.step s = .next s := step_of_stopped h
    exact (run_succ_of_step hstep n).trans ih

/-- A tick of a running core whose instruction faults takes the fault (R262). -/
theorem step_of_exec_fault {s : State} {w : InstrWord} {i : Instr} {f : Fault} (hs : Claims.Running s)
    (hw : s.fetch = .ok w) (hi : decode w = .ok i) (hf : exec i s = .fault f) : step s = .next (s.raise f) := by
  obtain ⟨hrun, hfault⟩ := hs
  simp [step, hrun, hfault, hw, hi, hf]

/-- Settles O7, from the two ways `exec` can answer. -/
theorem stepRunsDecodedInstruction : Obligations.StepRunsDecodedInstruction := by
  unfold Obligations.StepRunsDecodedInstruction
  intro s w i hs hw hi
  exact ⟨fun _ ht => step_of_exec_next hs (State.fetch_of_get hw) hi ht,
    fun _ hf => step_of_exec_fault hs (State.fetch_of_get hw) hi hf⟩

/-- Settles O13: the tick takes the fault, and the record names it. -/
theorem executeErrorIsRecorded : Obligations.ExecuteErrorIsRecorded := by
  unfold Obligations.ExecuteErrorIsRecorded
  intro s w i f hs hw hi hf
  exact ⟨s.raise f, step_of_exec_fault hs (State.fetch_of_get hw) hi hf, s.raise_fault f, s.raise_rom f,
    (s.raise_running f).trans hs.1, s.raise_cfg f⟩

/-- Where no word is listed at PC the fetch fails (R60). -/
theorem State.fetch_of_get_none {s : State} (h : s.rom.get (s.read 7).toNat = none) :
    s.fetch = .error (.fetchFault s.pc) := by
  have hpc : s.rom.get s.pc.toNat = none := h
  simp [State.fetch, hpc]

/-- Settles O11: the tick raises FetchFault, which is raised before execute and so leaves its record alone. -/
theorem unloadedFetchFaults : Obligations.UnloadedFetchFaults := by
  unfold Obligations.UnloadedFetchFaults
  intro s hs hnone
  obtain ⟨hrun, hfault⟩ := hs
  have hstep : step s = .next (s.raise (.fetchFault s.pc)) := by
    simp [step, hrun, hfault, State.fetch_of_get_none hnone]
  rw [hstep, State.raise_of_beforeExecute s rfl, State.pc]

end Sys2Proof.Machine
end

section
/-! No arm of `exec` refuses, and which arms fault (spec/60_exceptions.md R231, R263): obligations O14 and O22 -/

namespace Sys2Proof.Machine

theorem State.loadInto_ne_refused {s : State} {rd : RegIdx} {a : Word} {r : Refusal} :
    s.loadInto rd a ≠ .refused r := by
  unfold State.loadInto
  split <;> simp

theorem State.storeAt_ne_refused {s : State} {a v : Word} {r : Refusal} : s.storeAt a v ≠ .refused r := by
  unfold State.storeAt
  split <;> simp

/-- Every instruction has a meaning. -/
theorem exec_ne_refused (i : Instr) (s : State) (r : Refusal) : exec i s ≠ .refused r := by
  cases i with
  | ldx | ld | pop => exact State.loadInto_ne_refused
  | stx | st => exact State.storeAt_ne_refused
  | push => simp only [exec, execPush]; split <;> simp
  | call => simp only [exec, execCall]; split <;> simp
  | ftoi => simp only [exec, execFtoi]; split <;> simp
  | _ => exact fun h => nomatch h

/-- Settles O14: fetch and decode errors are taken, and no arm of `exec` refuses. -/
theorem everyTickCompletes : Obligations.EveryTickCompletes := by
  unfold Obligations.EveryTickCompletes
  intro s
  rw [step]
  split
  · exact ⟨_, rfl⟩
  split
  · exact ⟨_, rfl⟩
  split
  · exact ⟨_, rfl⟩
  split
  · exact ⟨_, rfl⟩
  · exact ⟨_, rfl⟩
  · next hr => exact absurd hr (exec_ne_refused _ s _)

/-- A failing load names its address with access read. -/
theorem State.memRead_error_kind {s : State} {a : Word} {f : Fault} (h : s.memRead a = .error f) :
    ∃ b, f = .unimplementedPeripheral b .read ∨ f = .outOfBounds b .read := by
  rcases State.memRead_error h with ⟨_, hf⟩ | ⟨_, _, hf⟩
  · exact ⟨a, .inl hf⟩
  · exact ⟨a, .inr hf⟩

/-- A failing store names its address with access write. -/
theorem State.memWrite_error_kind {s : State} {a v : Word} {f : Fault} (h : s.memWrite a v = .error f) :
    ∃ b, f = .unimplementedPeripheral b .write ∨ f = .outOfBounds b .write := by
  rcases State.memWrite_error h with ⟨_, hf⟩ | ⟨_, _, hf⟩
  · exact ⟨a, .inl hf⟩
  · exact ⟨a, .inr hf⟩

/-- push faults exactly when the store at SP fails. -/
theorem exec_push_fault {ra : RegIdx} {s : State} {f : Fault} :
    exec (.push ra) s = .fault f ↔ s.memWrite s.sp (s.read ra) = .error f := by
  rw [← State.pushWord_error]
  simp only [exec, execPush]
  split <;> simp [*]

/-- call faults exactly when the store at SP fails. -/
theorem exec_call_fault {k16 : BitVec 16} {s : State} {f : Fault} :
    exec (.call k16) s = .fault f ↔ s.memWrite s.sp (s.pc + 1#16) = .error f := by
  rw [← State.pushWord_error]
  simp only [exec, execCall]
  split <;> simp [*]

/-- Settles O22: loads fault by their read, stores by their write, ftoi by its operand, and nothing else faults. -/
theorem errorsComeFromTheirRaisers : Obligations.ErrorsComeFromTheirRaisers := by
  unfold Obligations.ErrorsComeFromTheirRaisers
  intro i s f h
  cases i with
  | ldx | ld | pop => exact .inl ⟨rfl, State.memRead_error_kind (State.loadInto_fault.mp h)⟩
  | stx | st => exact .inr (.inl ⟨rfl, State.memWrite_error_kind (State.storeAt_fault.mp h)⟩)
  | push => exact .inr (.inl ⟨rfl, State.memWrite_error_kind (exec_push_fault.mp h)⟩)
  | call => exact .inr (.inl ⟨rfl, State.memWrite_error_kind (exec_call_fault.mp h)⟩)
  | ftoi rd ra =>
    simp only [exec, execFtoi] at h
    split at h <;> cases h
    exact .inr (.inr ⟨rd, ra, rfl, rfl⟩)
  | _ => cases h

end Sys2Proof.Machine
end

section
/-! The invariant (spec/10_state.md): obligation O15 -/

namespace Sys2Proof.Machine

/-- The parts of the invariant that every operation of an instruction keeps: all but `pcw`. -/
structure Canonical (s : State) : Prop where
  ram : Memory.wf s.ram = true
  rom : Store.wf s.rom = true
  slotZero : s.regs[0] = 0#16
  cfg : s.cfg.wf = true

theorem State.inv_iff (s : State) : s.inv = true ↔ Canonical s ∧ s.pcw = false := by
  simp only [State.inv, Bool.and_eq_true, beq_iff_eq, Bool.not_eq_true']
  exact ⟨fun ⟨⟨⟨⟨hram, hrom⟩, hzero⟩, hpcw⟩, hcfg⟩ => ⟨⟨hram, hrom, hzero, hcfg⟩, hpcw⟩,
    fun ⟨⟨hram, hrom, hzero, hcfg⟩, hpcw⟩ => ⟨⟨⟨⟨hram, hrom⟩, hzero⟩, hpcw⟩, hcfg⟩⟩

theorem canonical_opsKeep : OpsKeep Canonical where
  write s i v h := ⟨by simpa using h.ram, by simpa using h.rom, by simpa using h.slotZero, by simpa using h.cfg⟩
  draw _ h := ⟨h.ram, h.rom, h.slotZero, h.cfg⟩
  store s t a v ht h := by
    rcases State.memWrite_ok ht with rfl | ⟨_, k, rfl⟩ | ⟨hrange, rfl⟩
    · exact h
    · exact ⟨h.ram, h.rom, h.slotZero, h.cfg⟩
    · exact ⟨Memory.write_wf s.ram _ v h.ram hrange, h.rom, h.slotZero, h.cfg⟩
  halt _ h := ⟨h.ram, h.rom, h.slotZero, h.cfg⟩

theorem Canonical.advancePc {s : State} (h : Canonical s) : Canonical s.advancePc :=
  ⟨by simpa using h.ram, by simpa using h.rom, by simpa using h.slotZero, by simpa using h.cfg⟩

theorem freeRegs_slot_zero (n : Nat) : (freeRegs n)[0] = 0#16 := by simp [freeRegs]

/-- The free values of an execute-time error are canonical (R232, D31). -/
theorem Canonical.raise {s : State} (h : Canonical s) (f : Fault) : Canonical (s.raise f) where
  ram := by
    unfold State.raise
    split
    · exact h.ram
    · exact freeRam_wf s.draws
  rom := by simpa using h.rom
  slotZero := by
    unfold State.raise
    split
    · exact h.slotZero
    · exact freeRegs_slot_zero s.draws
  cfg := by simpa using h.cfg

/-- The end of a tick that started with `pcw` clear leaves it clear: a halting instruction never sets it. -/
theorem finishTick_pcw {i : Instr} {s t : State} (hrun : s.running = true) (hpcw : s.pcw = false)
    (h : exec i s = .next t) : t.finishTick.pcw = false := by
  unfold State.finishTick
  split
  · exact t.advancePc_pcw
  · next hhalt =>
    rw [exec_halted h hrun (by simpa using hhalt)]
    exact hpcw

theorem Canonical.finishTick {s : State} (h : Canonical s) : Canonical s.finishTick := by
  unfold State.finishTick
  split
  · exact h.advancePc
  · exact h

/-- Settles O15, by the three ways a tick can go. -/
theorem everyTickKeepsInvariant : Obligations.EveryTickKeepsInvariant := by
  unfold Obligations.EveryTickKeepsInvariant
  intro s t hinv hstep
  rw [State.inv_iff] at hinv ⊢
  obtain ⟨hcan, hpcw⟩ := hinv
  rcases step_cases hstep with ⟨_, rfl⟩ | ⟨_, hrun, ⟨f, rfl, _⟩ | ⟨w, i, u, _, _, hu, rfl⟩⟩
  · exact ⟨hcan, hpcw⟩
  · exact ⟨hcan.raise f, (s.raise_pcw f).trans hpcw⟩
  · exact ⟨(canonical_opsKeep.exec hu hcan).finishTick, finishTick_pcw hrun hpcw hu⟩

end Sys2Proof.Machine
end

section
/-! The state after construction (spec/10_state.md R39): obligations O5 and O6 -/

namespace Sys2Proof.Machine

/-- Settles O5: every register slot is 0 and the program store lists nothing. -/
theorem resetValues : Obligations.ResetValues := by
  unfold Obligations.ResetValues
  refine ⟨fun i => ?_, rfl, rfl, rfl, rfl, fun _ => rfl⟩
  simp [State.read, State.reset]

/-- The kind of each slot of the port table at reset. -/
theorem openPortKind_getElem (q : Fin 32) : Config.openPortKind[q] =
    if q.val = Config.openDisplaySlot.val then .binaryDisplay
    else if q.val = (Config.openDisplaySlot.val + 1 + Config.openDebugGap.val) % 32 then .debug
    else if Config.openNullSlot q then .null
    else .unimplemented := by
  simp [Config.openPortKind]

/-- The port table at reset has one display slot and one debug slot: the gap between them is not 0 modulo 32. -/
theorem config_default_wf : Config.default.wf = true := by
  have hgap := Config.openDebugGap.isLt
  have hslot := Config.openDisplaySlot.isLt
  refine decide_eq_true ⟨⟨Config.openDisplaySlot, fun q => ?display⟩,
    ⟨(Config.openDisplaySlot.val + 1 + Config.openDebugGap.val) % 32, Nat.mod_lt _ (by decide)⟩, fun q => ?debug⟩
  all_goals
    change Config.openPortKind[q] = _ ↔ _
    rw [openPortKind_getElem, Fin.ext_iff]
    split
    · simp; omega
    split
    · simp; omega
    · split <;> simp <;> omega

/-- Settles O6: nothing is listed, nothing is written, and the port table is legal. -/
theorem resetMeetsInvariant : Obligations.ResetMeetsInvariant :=
  (State.inv_iff _).mpr ⟨⟨rfl, rfl, by simp [State.reset], config_default_wf⟩, rfl⟩

end Sys2Proof.Machine
end

section
/-! nop, int and hlt (spec/43_control_flow.md R216 to R219): obligation O49 -/

namespace Sys2Proof.Machine

/-- Settles O49: each is the halt or nothing, by its test. -/
theorem haltAndNopEffects : Obligations.HaltAndNopEffects := by
  unfold Obligations.HaltAndNopEffects
  intro s
  refine ⟨rfl, fun n => ?int, ?nop⟩
  case int =>
    have hzero : n.toNat = 0 ↔ n = 0#4 := by rw [← BitVec.toNat_inj]; rfl
    simp only [exec, execInt, hzero]
    split <;> rfl
  case nop =>
    simp only [exec, execNop]
    split <;> rfl

end Sys2Proof.Machine
end

section
/-! Frames of several operations in a row (spec/10_state.md R20 to R24). -/

namespace Sys2Proof.Machine

section
variable {s t u : State} {V W U : List RegIdx}

/-- Register frames compose: the registers of both, and `pcw` as R24 says. -/
theorem regFrame_trans (hst : Claims.RegFrame s t W) (htu : Claims.RegFrame t u V) (hU : ∀ j, j ∈ U ↔ j ∈ W ∨ j ∈ V) :
    Claims.RegFrame s u U := by
  obtain ⟨hread, hpcw, hrom, hrun, hfault, hcfg⟩ := hst
  obtain ⟨hread', hpcw', hrom', hrun', hfault', hcfg'⟩ := htu
  refine ⟨fun j hj => ?read, ?pcw, hrom'.trans hrom, hrun'.trans hrun, hfault'.trans hfault, hcfg'.trans hcfg⟩
  case read =>
    obtain ⟨hW, hV⟩ := not_or.mp ((hU j).not.mp hj)
    exact (hread' j hV).trans (hread j hW)
  case pcw => simp [hpcw', hpcw, hU 7, Bool.or_assoc]

theorem memFrame_trans (hst : Claims.MemFrame s t) (htu : Claims.MemFrame t u) : Claims.MemFrame s u :=
  ⟨fun a => (htu.1 a).trans (hst.1 a), htu.2.trans hst.2⟩

theorem frame_trans (hst : Claims.Frame s t W) (htu : Claims.Frame t u V) (hU : ∀ j, j ∈ U ↔ j ∈ W ∨ j ∈ V) :
    Claims.Frame s u U := by
  obtain ⟨hreg, hmem, hdraws⟩ := hst
  obtain ⟨hreg', hmem', hdraws'⟩ := htu
  exact ⟨regFrame_trans hreg hreg' hU, memFrame_trans hmem hmem', hdraws'.trans hdraws⟩

end

end Sys2Proof.Machine
end

section
/-! Add, subtract and the shifts (spec/40_alu.md R123 to R135, R138): obligations O28 to O34. -/

namespace Sys2Proof.Machine

/-- The two writes of add and sub, in either order (R125). -/
theorem State.writeAddSub_frame (s : State) (rd : RegIdx) (r f : Word) {W : List RegIdx}
    (hW : ∀ j, j ∈ W ↔ j = rd ∨ j = 8) : Claims.Frame s (s.writeAddSub rd r f) W := by
  unfold State.writeAddSub
  split
  · exact frame_trans (s.write_frame rd r) ((s.write rd r).write_frame 8 f) (by simpa using hW)
  · exact frame_trans (s.write_frame 8 f) ((s.write 8 f).write_frame rd r) (by simpa [or_comm] using hW)

/-! Values modulo 2^16 -/

theorem ofInt_sub (x y : Int) : BitVec.ofInt 16 (x - y) = BitVec.ofInt 16 x - BitVec.ofInt 16 y := by
  rw [Int.sub_eq_add_neg, BitVec.ofInt_add, BitVec.ofInt_neg, BitVec.sub_eq_add_neg]

theorem ofInt_toNat (a : Word) : BitVec.ofInt 16 a.toNat = a := by
  rw [BitVec.ofInt_natCast, BitVec.ofNat_toNat, BitVec.setWidth_eq]

/-- The number of an integer modulo 2^16. -/
theorem toNat_ofInt_emod (x : Int) : ((BitVec.ofInt 16 x).toNat : Int) = x % 65536 := by
  rw [BitVec.toNat_ofInt]
  omega

/-- The sum and the difference modulo 2^16, for any integer that the second operand stands for. -/
theorem toNat_add_ofInt (a : Word) (x : Int) : ((a + BitVec.ofInt 16 x).toNat : Int) = (a.toNat + x) % 65536 := by
  rw [← toNat_ofInt_emod, BitVec.ofInt_add, ofInt_toNat]

theorem toNat_sub_ofInt (a : Word) (x : Int) : ((a - BitVec.ofInt 16 x).toNat : Int) = (a.toNat - x) % 65536 := by
  rw [← toNat_ofInt_emod, ofInt_sub, ofInt_toNat]

theorem sumOf_eq_add (a b : Word) : Claims.sumOf a b = a + b := by
  rw [Claims.sumOf, BitVec.ofInt_add, BitVec.ofInt_toInt, BitVec.ofInt_toInt]

theorem differenceOf_eq_sub (a b : Word) : Claims.differenceOf a b = a - b := by
  rw [Claims.differenceOf, ofInt_sub, BitVec.ofInt_toInt, BitVec.ofInt_toInt]

/-! The result of add and sub (R126 to R129) -/

/-- An instruction that is the two writes of add and sub completes within the frame of its destination and FL; the
destination holds the result unless it is register 0 or FL. -/
theorem completes_of_exec_writeAddSub {s : State} {i : Instr} {rd : RegIdx} {r f : Word} (P : Word → Prop)
    (hi : exec i s = .next (s.writeAddSub rd r f)) (hr : P r) :
    ∃ t, exec i s = .next t ∧ Claims.Frame s t [rd, 8] ∧ (rd ≠ 0 → rd ≠ 8 → P (t.read rd)) := by
  refine ⟨_, hi, s.writeAddSub_frame rd r f (by simp), fun h0 h8 => ?_⟩
  rw [State.read_writeAddSub, if_neg (fun h => h8 h.1), if_pos ⟨rfl, h0⟩]
  exact hr

/-- Settles O28: the result is the sum of the two words. -/
theorem addWritesWrappedSum : Obligations.AddWritesWrappedSum := by
  unfold Obligations.AddWritesWrappedSum
  constructor
  · intro s rd ra rb
    exact completes_of_exec_writeAddSub (fun r => r.toNat = ((s.read ra).toNat + (s.read rb).toNat) % 65536) rfl
      (BitVec.toNat_add _ _)
  · intro s rd ra k8
    exact completes_of_exec_writeAddSub (fun r => (r.toNat : Int) = ((s.read ra).toNat + k8.toInt) % 65536) rfl
      (toNat_add_ofInt _ _)

/-- Settles O29: the result is the difference of the two words. -/
theorem subWritesWrappedDifference : Obligations.SubWritesWrappedDifference := by
  unfold Obligations.SubWritesWrappedDifference
  constructor
  · intro s rd ra rb
    refine completes_of_exec_writeAddSub
      (fun r => (r.toNat : Int) = ((s.read ra).toNat - (s.read rb).toNat) % 65536) rfl ?_
    rw [← toNat_sub_ofInt, ofInt_toNat]
  · intro s rd ra k8
    exact completes_of_exec_writeAddSub (fun r => (r.toNat : Int) = ((s.read ra).toNat - k8.toInt) % 65536) rfl
      (toNat_sub_ofInt _ _)

/-! The flags (R123, R124) -/

/-- The bits of the flags word, from the highest: zeros, OVF, S, OVF, Z. -/
theorem flag_bits : ∀ o n z : Bool,
    let w : Word := 0#12 ++ BitVec.ofBool o ++ BitVec.ofBool n ++ BitVec.ofBool o ++ BitVec.ofBool z
    w.getLsbD 0 = z ∧ w.getLsbD 1 = o ∧ w.getLsbD 2 = n ∧ w.getLsbD 3 = o ∧ w.toNat < 16 := by decide

theorem flagsWord_flagsAre (ovf : Bool) (r : Word) : Claims.FlagsAre (flagsWord ovf r) r (ovf = true) := by
  have hz : (r == 0#16) = true ↔ r.toNat = 0 := by
    rw [beq_iff_eq, ← BitVec.toNat_inj]; rfl
  have hn : r.msb = true ↔ 32768 ≤ r.toNat := by
    rw [BitVec.msb_eq_decide, decide_eq_true_iff]
  obtain ⟨h0, h1, h2, h3, hlt⟩ := flag_bits ovf r.msb (r == 0#16)
  exact ⟨(Bool.eq_iff_iff.mp h0).trans hz, Bool.eq_iff_iff.mp h1, (Bool.eq_iff_iff.mp h2).trans hn,
    Bool.eq_iff_iff.mp h3, hlt⟩

theorem ovfAdd_iff (m : OvfMode) (a b : Word) : ovfAdd m a b = true ↔ Claims.AddOverflows m a b := by
  cases m <;> simp [ovfAdd, Claims.AddOverflows, signedOverflow]

theorem ovfSub_iff (m : OvfMode) (a b : Word) : ovfSub m a b = true ↔ Claims.SubOverflows m a b := by
  cases m <;> simp [ovfSub, Claims.SubOverflows, signedOverflow]

theorem addFlags_flagsAre (m : OvfMode) (a b : Word) :
    Claims.FlagsAre (flagsWord (ovfAdd m a b) (a + b)) (a + b) (Claims.AddOverflows m a b) :=
  propext (ovfAdd_iff m a b) ▸ flagsWord_flagsAre (ovfAdd m a b) (a + b)

theorem subFlags_flagsAre (m : OvfMode) (a b : Word) :
    Claims.FlagsAre (flagsWord (ovfSub m a b) (a - b)) (a - b) (Claims.SubOverflows m a b) :=
  propext (ovfSub_iff m a b) ▸ flagsWord_flagsAre (ovfSub m a b) (a - b)

/-- With another destination FL holds the flags (R125). -/
theorem State.read_eight_writeAddSub (s : State) {rd : RegIdx} (h : rd ≠ 8) (r f : Word) :
    (s.writeAddSub rd r f).read 8 = f := by
  rw [State.read_writeAddSub, if_pos ⟨rfl, .inl h⟩]

theorem setsFlags_of_exec_writeAddSub {s : State} {i : Instr} {rd : RegIdx} {r f : Word} {ovf : Prop} (hrd : rd ≠ 8)
    (hi : exec i s = .next (s.writeAddSub rd r f)) (hf : Claims.FlagsAre f r ovf) :
    ∃ t, exec i s = .next t ∧ Claims.FlagsAre (t.read 8) r ovf :=
  ⟨_, hi, by rwa [s.read_eight_writeAddSub hrd]⟩

/-- Settles O30: each form is the two writes of add and sub with its flags. -/
theorem addSubSetFlags : Obligations.AddSubSetFlags := by
  unfold Obligations.AddSubSetFlags
  intro s rd ra hrd
  simp only [sumOf_eq_add, differenceOf_eq_sub]
  exact ⟨fun _ => setsFlags_of_exec_writeAddSub hrd rfl (addFlags_flagsAre _ _ _),
    fun _ => setsFlags_of_exec_writeAddSub hrd rfl (addFlags_flagsAre _ _ _),
    fun _ => setsFlags_of_exec_writeAddSub hrd rfl (subFlags_flagsAre _ _ _),
    fun _ => setsFlags_of_exec_writeAddSub hrd rfl (subFlags_flagsAre _ _ _)⟩

/-- With destination FL the later of the two writes stands (R125, D21). -/
theorem intoFlags_of_exec_writeAddSub {s : State} {i : Instr} {r f : Word} {ovf : Prop}
    (hi : exec i s = .next (s.writeAddSub 8 r f)) (hf : Claims.FlagsAre f r ovf) :
    ∃ t, exec i s = .next t ∧ Claims.Frame s t [8] ∧
      (s.cfg.flDstOrder = .flagsLast → Claims.FlagsAre (t.read 8) r ovf) ∧
      (s.cfg.flDstOrder = .resultLast → t.read 8 = r) := by
  refine ⟨_, hi, s.writeAddSub_frame 8 r f (by simp), fun hlast => ?flags, fun hlast => ?result⟩
  case flags => rwa [State.read_writeAddSub, if_pos ⟨rfl, .inr hlast⟩]
  case result => simp [State.read_writeAddSub, hlast]

/-- Settles O31: each form is the two writes of add and sub, both into FL. -/
theorem addSubIntoFlags : Obligations.AddSubIntoFlags := by
  unfold Obligations.AddSubIntoFlags
  simp only [sumOf_eq_add, differenceOf_eq_sub]
  rintro s ra i r ovf (⟨rb, rfl, rfl, rfl⟩ | ⟨k8, rfl, rfl, rfl⟩ | ⟨rb, rfl, rfl, rfl⟩ | ⟨k8, rfl, rfl, rfl⟩)
  case inl | inr.inl => exact intoFlags_of_exec_writeAddSub rfl (addFlags_flagsAre _ _ _)
  case inr.inr.inl | inr.inr.inr => exact intoFlags_of_exec_writeAddSub rfl (subFlags_flagsAre _ _ _)

/-! The shifts (R130 to R135, R138) -/

/-- A word divided by a power of two stays a signed word. -/
theorem asrBy_toInt (a : Word) (amt : Nat) : (asrBy a amt).toInt = a.toInt / 2 ^ amt := by
  have hlo : -32768 ≤ a.toInt := a.le_toInt
  have hhi : a.toInt < 32768 := a.toInt_lt
  have hpow : (0 : Int) < 2 ^ amt := by positivity
  have hdivlo : -32768 ≤ a.toInt / 2 ^ amt := (Int.le_ediv_iff_mul_le hpow).mpr (by omega)
  have hdivhi : a.toInt / 2 ^ amt < 32768 := (Int.ediv_lt_iff_lt_mul hpow).mpr (by omega)
  exact BitVec.toInt_ofInt_eq_self (by decide) hdivlo hdivhi

theorem lsrBy_toNat (a : Word) (amt : Nat) : (lsrBy a amt).toNat = a.toNat / 2 ^ amt := by
  rw [lsrBy, BitVec.toNat_ofNat, Nat.mod_eq_of_lt ((Nat.div_le_self _ _).trans_lt a.isLt)]

theorem lslBy_toNat (a : Word) (amt : Nat) : (lslBy a amt).toNat = a.toNat * 2 ^ amt % 65536 := BitVec.toNat_ofNat _ _

/-- A shift by fewer than 16 places, and the two settings from 16 on. -/
theorem shiftBy_cases (m : ShiftWide) (f : Word → Nat → Word) (wide a b : Word) :
    (b.toNat < 16 → shiftBy m f wide a b = f a b.toNat) ∧
    (16 ≤ b.toNat → m = .saturate → shiftBy m f wide a b = wide) ∧
    (16 ≤ b.toNat → m = .mod16 → shiftBy m f wide a b = f a (b.toNat % 16)) := by
  unfold shiftBy
  refine ⟨fun h => if_pos h, fun h hm => ?_, fun h hm => ?_⟩
  · rw [if_neg h.not_gt, hm]
  · rw [if_neg h.not_gt, hm]

theorem asrResult_asrIs (m : ShiftWide) (a b : Word) : Claims.AsrIs m a b.toNat (asrResult m a b) := by
  obtain ⟨hlow, hsat, hmod⟩ := shiftBy_cases m asrBy (if a.msb then 0xFFFF#16 else 0#16) a b
  refine ⟨fun h => ?_, fun h hm => ?_, fun h hm => ?_⟩
  · rw [asrResult, hlow h, asrBy_toInt]
  · rw [asrResult, hsat h hm, BitVec.msb_eq_toInt]; simp
  · rw [asrResult, hmod h hm, asrBy_toInt]

theorem lsrResult_lsrIs (m : ShiftWide) (a b : Word) : Claims.LsrIs m a b.toNat (lsrResult m a b) := by
  obtain ⟨hlow, hsat, hmod⟩ := shiftBy_cases m lsrBy 0#16 a b
  exact ⟨fun h => (congrArg _ (hlow h)).trans (lsrBy_toNat a _), hsat,
    fun h hm => (congrArg _ (hmod h hm)).trans (lsrBy_toNat a _)⟩

theorem lslResult_lslIs (m : ShiftWide) (a b : Word) : Claims.LslIs m a b.toNat (lslResult m a b) := by
  obtain ⟨hlow, hsat, hmod⟩ := shiftBy_cases m lslBy 0#16 a b
  exact ⟨fun h => (congrArg _ (hlow h)).trans (lslBy_toNat a _), hsat,
    fun h hm => (congrArg _ (hmod h hm)).trans (lslBy_toNat a _)⟩

/-- Settles O32: asr and asri are one register write of `asrResult`. -/
theorem asrShiftsWithSign : Obligations.AsrShiftsWithSign := by
  unfold Obligations.AsrShiftsWithSign
  exact ⟨fun _ _ _ _ => completes_of_exec_write (Claims.AsrIs _ _ _) rfl (asrResult_asrIs _ _ _),
    fun _ _ _ _ => completes_of_exec_write (Claims.AsrIs _ _ _) rfl (asrResult_asrIs _ _ _)⟩

/-- Settles O33: lsr and lsri are one register write of `lsrResult`. -/
theorem lsrShiftsInZeros : Obligations.LsrShiftsInZeros := by
  unfold Obligations.LsrShiftsInZeros
  exact ⟨fun _ _ _ _ => completes_of_exec_write (Claims.LsrIs _ _ _) rfl (lsrResult_lsrIs _ _ _),
    fun _ _ _ _ => completes_of_exec_write (Claims.LsrIs _ _ _) rfl (lsrResult_lsrIs _ _ _)⟩

/-- Settles O34: lsl and lsli are one register write of `lslResult`. -/
theorem lslShiftsLeft : Obligations.LslShiftsLeft := by
  unfold Obligations.LslShiftsLeft
  exact ⟨fun _ _ _ _ => completes_of_exec_write (Claims.LslIs _ _ _) rfl (lslResult_lslIs _ _ _),
    fun _ _ _ _ => completes_of_exec_write (Claims.LslIs _ _ _) rfl (lslResult_lslIs _ _ _)⟩

end Sys2Proof.Machine
end

section
/-! The memory bus by address, loads and stores (spec/20_memory.md, spec/42_memory_access.md): obligations O26, O27 and
O38 to O41. -/

namespace Sys2Proof.Machine

/-! Ports (R63 to R65, D25, D27) -/

theorem State.portKind_ofNat (s : State) (p : Fin 32) : s.portKind (BitVec.ofNat 16 p.val) = s.cfg.portKind[p.val] := by
  have hp : (BitVec.ofNat 16 p.val).toNat = p.val := by rw [BitVec.toNat_ofNat]; omega
  simp [State.portKind, hp]

theorem State.portKind_eq_portAt (s : State) (a : Word) : s.portKind a = Claims.portAt s a := by
  simp [State.portKind, Claims.portAt]

/-- Past the last port nothing answers. -/
theorem State.portKind_hole (s : State) {a : Word} (h : 0x20 ≤ a.toNat) : s.portKind a = .unimplemented := by
  simp [State.portKind, h]

theorem State.memRead_port (s : State) {a : Word} (h : a.toNat < 0x100) :
    s.memRead a = if s.portKind a = .null then .ok 0#16 else .error (.unimplementedPeripheral a .read) := by
  rw [State.memRead, if_pos h, State.ioRead]
  cases s.portKind a <;> rfl

theorem State.memWrite_port (s : State) {a : Word} (v : Word) (h : a.toNat < 0x100) : s.memWrite a v = s.ioWrite a v :=
  if_pos h

theorem toNat_ofNat_port_lt (p : Fin 32) : (BitVec.ofNat 16 p.val).toNat < 0x100 := by
  rw [BitVec.toNat_ofNat]; omega

/-- Settles O26: a store to a port is the handler of its slot. -/
theorem portStores : Obligations.PortStores := by
  unfold Obligations.PortStores
  intro s p v
  rw [s.memWrite_port v (toNat_ofNat_port_lt p), State.ioWrite, s.portKind_ofNat p]
  cases s.cfg.portKind[p.val] <;> rfl

/-- Settles O27: only a null slot answers a load, and no slot answers from 0x20 to 0xFF. -/
theorem portLoadsAndHole : Obligations.PortLoadsAndHole := by
  unfold Obligations.PortLoadsAndHole
  constructor
  · intro s p
    rw [s.memRead_port (toNat_ofNat_port_lt p), s.portKind_ofNat p]
  · intro s a v hlo hhi
    rw [s.memRead_port hhi, s.memWrite_port v hhi, State.ioWrite, s.portKind_hole hlo]
    exact ⟨rfl, rfl⟩

/-! The bus by address (R53, R54, R57) -/

theorem readValue_ram (s : State) {a : Word} (hlo : 0x100 ≤ a.toNat) (hhi : a.toNat < 0x200) :
    Claims.readValue s a = Memory.read s.ram a.toNat := if_pos ⟨hlo, hhi⟩

theorem readValue_other (s : State) {a : Word} (h : a.toNat < 0x100 ∨ 0x200 ≤ a.toNat) : Claims.readValue s a = 0#16 :=
  if_neg (by omega)

/-- RAM raises no error. -/
theorem readFault_ram (s : State) {a : Word} (hlo : 0x100 ≤ a.toNat) (hhi : a.toNat < 0x200) :
    Claims.readFault s a = none := by
  have hslot : ¬ a.toNat < 0x20 := by omega
  simp [Claims.readFault, hslot, hlo.not_gt, hhi]

theorem writeFault_ram (s : State) {a : Word} (hlo : 0x100 ≤ a.toNat) (hhi : a.toNat < 0x200) :
    Claims.writeFault s a = none := by
  have hslot : ¬ a.toNat < 0x20 := by omega
  simp [Claims.writeFault, hslot, hlo.not_gt, hhi]

/-- A load answers the error of its address, if there is one, and else the value there. -/
theorem State.memRead_eq (s : State) (a : Word) :
    s.memRead a = (Claims.readFault s a).elim (.ok (Claims.readValue s a)) .error := by
  unfold Claims.readFault
  split
  · next hport =>
    rw [s.memRead_port (by omega), s.portKind_eq_portAt, readValue_other s (by omega)]
    split <;> rfl
  split
  · next hlo hhi => rw [s.memRead_port hhi, s.portKind_hole (by omega)]; rfl
  split
  · next hlo hhi => rw [s.memRead_ram (by omega) (by omega), readValue_ram s (by omega) hhi]; rfl
  · next hlo =>
    rw [s.memRead_beyond (by omega), readValue_other s (by omega)]
    split <;> rfl

/-- A store fails exactly with the error of its address. -/
theorem State.memWrite_error_iff (s : State) (a v : Word) (f : Fault) :
    s.memWrite a v = .error f ↔ Claims.writeFault s a = some f := by
  unfold Claims.writeFault
  split
  · next hport =>
    rw [s.memWrite_port v (by omega), State.ioWrite, s.portKind_eq_portAt]
    cases Claims.portAt s a <;> simp
  split
  · next hlo hhi => simp [s.memWrite_port v hhi, State.ioWrite, s.portKind_hole (Nat.le_of_not_lt hlo)]
  split
  · next hlo hhi => simp [s.memWrite_ram v (Nat.le_of_not_lt hlo) (Nat.le_of_lt_succ hhi)]
  · next hlo =>
    rw [s.memWrite_beyond v (Nat.le_of_not_lt hlo)]
    split <;> simp

/-- A store that completes writes its RAM cell, or the port's record, or nothing. -/
theorem State.memWrite_stored {s t : State} {a v : Word} (hwf : Memory.wf s.ram = true) (h : s.memWrite a v = .ok t) :
    Claims.Stored s t a v := by
  unfold Claims.Stored
  by_cases hport : a.toNat < 0x100
  · rw [s.memWrite_port v hport, State.ioWrite] at h
    by_cases hslot : a.toNat < 0x20
    · rw [s.portKind_eq_portAt] at h
      split at h <;> cases h <;> simp [*, hport.not_ge]
    · simp [s.portKind_hole (Nat.le_of_not_lt hslot)] at h
  have hlo : 0x100 ≤ a.toNat := Nat.le_of_not_lt hport
  have hslot : ¬ a.toNat < 0x20 := by omega
  by_cases hram : a.toNat ≤ 0x1FF
  · rw [s.memWrite_ram v hlo hram] at h
    cases h
    simp [Memory.read_write s.ram _ _ v hwf, hlo, Nat.lt_succ_of_le hram, hslot]
  · have hout : ¬ a.toNat < 0x200 := by omega
    rw [s.memWrite_beyond v (Nat.le_of_not_lt hout)] at h
    split at h <;> cases h
    simp [hout, hslot]

theorem State.memWrite_regFrame {s t : State} {a v : Word} (h : s.memWrite a v = .ok t) :
    Claims.RegFrame s t [] ∧ t.draws = s.draws := by
  have hread := State.memWrite_read h
  rcases State.memWrite_ok h with rfl | ⟨_, k, rfl⟩ | ⟨_, rfl⟩ <;> exact ⟨⟨fun j _ => hread j, by simp⟩, rfl⟩

/-- A store whose address raises no error completes as `Claims.Stored` says. -/
theorem State.memWrite_of_writeFault_none {s : State} {a v : Word} (hwf : Memory.wf s.ram = true)
    (h : Claims.writeFault s a = none) :
    ∃ t, s.memWrite a v = .ok t ∧ Claims.Stored s t a v ∧ Claims.RegFrame s t [] ∧ t.draws = s.draws := by
  cases ht : s.memWrite a v with
  | ok t => exact ⟨t, rfl, State.memWrite_stored hwf ht, State.memWrite_regFrame ht⟩
  | error f =>
    rw [State.memWrite_error_iff, h] at ht
    cases ht

/-! Loads and stores as whole instructions (R173 to R177) -/

theorem State.loadInto_of_readFault_none {s : State} {a : Word} (rd : RegIdx) (h : Claims.readFault s a = none) :
    s.loadInto rd a = .next (s.write rd (Claims.readValue s a)) := by
  rw [State.loadInto, s.memRead_eq, h]
  rfl

theorem State.loadInto_of_readFault_some {s : State} {a : Word} {f : Fault} (rd : RegIdx)
    (h : Claims.readFault s a = some f) : s.loadInto rd a = .fault f := by
  rw [State.loadInto, s.memRead_eq, h]
  rfl

/-- A load completes where its read raises no error, and raises that error otherwise. -/
theorem State.loadInto_loads (s : State) (rd : RegIdx) (a : Word) :
    (Claims.readFault s a = none → Claims.Loads s rd a (s.loadInto rd a)) ∧
      ∀ f, Claims.readFault s a = some f → s.loadInto rd a = .fault f := by
  refine ⟨fun h => ?_, fun _ h => State.loadInto_of_readFault_some rd h⟩
  rw [State.loadInto_of_readFault_none rd h]
  exact ⟨_, rfl, s.read_write_self rd _, s.write_frame rd _⟩

/-- A store completes where its write raises no error, and raises that error otherwise. -/
theorem State.storeAt_stores {s : State} (hwf : Memory.wf s.ram = true) (a v : Word) :
    (Claims.writeFault s a = none → Claims.Stores s a v (s.storeAt a v)) ∧
      ∀ f, Claims.writeFault s a = some f → s.storeAt a v = .fault f := by
  refine ⟨fun h => ?_, fun f h => State.storeAt_fault.mpr ((s.memWrite_error_iff a v f).mpr h)⟩
  obtain ⟨t, ht, hstored, hframe⟩ := State.memWrite_of_writeFault_none (v := v) hwf h
  exact ⟨t, State.storeAt_next.mpr ht, hstored, hframe⟩

/-! Addresses (R172, R175, D9 to D11) -/

theorem State.eaScaled_eq (s : State) (rp : RegIdx) (sc : BitVec 2) (off4 : BitVec 4) :
    s.eaScaled rp sc off4 = Claims.scaledAddr s rp sc off4 := by
  rw [State.eaScaled, State.pt, Claims.scaledAddr, BitVec.ofNat_add, BitVec.ofNat_add, BitVec.ofNat_mul,
    BitVec.ofNat_toNat, BitVec.ofNat_toNat, BitVec.ofNat_toNat, BitVec.setWidth_eq, BitVec.setWidth_eq]

theorem State.eaImm_eq (s : State) (rp : RegIdx) (off6 : BitVec 6) : s.eaImm rp off6 = Claims.offsetAddr s rp off6 := by
  rw [State.eaImm, Claims.offsetAddr, BitVec.ofNat_add, BitVec.ofNat_toNat, BitVec.ofNat_toNat, BitVec.setWidth_eq]

/-- Settles O38: ldx is a load at the scaled address. -/
theorem ldxLoadsScaledAddress : Obligations.LdxLoadsScaledAddress := by
  unfold Obligations.LdxLoadsScaledAddress
  intro s rd rp sc off4
  rw [← s.eaScaled_eq]
  exact s.loadInto_loads rd _

/-- Settles O39: ld is a load at the offset address. -/
theorem ldLoadsOffsetAddress : Obligations.LdLoadsOffsetAddress := by
  unfold Obligations.LdLoadsOffsetAddress
  intro s rd rp off6
  rw [← s.eaImm_eq]
  exact s.loadInto_loads rd _

/-- Settles O40: stx is a store at the scaled address. -/
theorem stxStoresScaledAddress : Obligations.StxStoresScaledAddress := by
  unfold Obligations.StxStoresScaledAddress
  intro s rs rp sc off4 hwf
  rw [← s.eaScaled_eq]
  exact State.storeAt_stores hwf _ _

/-- Settles O41: st is a store at the offset address. -/
theorem stStoresOffsetAddress : Obligations.StStoresOffsetAddress := by
  unfold Obligations.StStoresOffsetAddress
  intro s rs rp off6 hwf
  rw [← s.eaImm_eq]
  exact State.storeAt_stores hwf _ _

end Sys2Proof.Machine
end

section
/-! The stack, calls and the branches that update PT (spec/43_control_flow.md): obligations O42 to O45, O47 and O48. -/

namespace Sys2Proof.Machine

theorem toNat_add_one (a : Word) : (a + 1#16).toNat = (a.toNat + 1) % 65536 := BitVec.toNat_add _ _

/-! Push and call (R196, R201) -/

/-- The memory and log of a store stay through register writes. -/
theorem stored_write {s t : State} {a v : Word} (h : Claims.Stored s t a v) (i : RegIdx) (x : Word) :
    Claims.Stored s (t.write i x) a v := by
  simpa [Claims.Stored] using h

/-- The start of push and call: the store at SP, and then SP plus one. -/
theorem State.pushWord_of_writeFault_none {s : State} {v : Word} (hwf : Memory.wf s.ram = true)
    (h : Claims.writeFault s (s.read 15) = none) :
    ∃ t, s.pushWord v = .ok t ∧ Claims.Stored s t (s.read 15) v ∧ Claims.RegFrame s t [15] ∧ t.draws = s.draws ∧
      (t.read 15).toNat = ((s.read 15).toNat + 1) % 65536 := by
  obtain ⟨u, hu, hstored, hframe, hdraws⟩ := State.memWrite_of_writeFault_none (v := v) hwf h
  have hsp : (15 : RegIdx) ≠ 0 := by decide
  obtain ⟨hwrite, _, _⟩ := u.write_frame 15 (s.sp + 1#16)
  refine ⟨u.write 15 (s.sp + 1#16), State.pushWord_ok.mpr ⟨u, hu, rfl⟩, stored_write hstored _ _,
    regFrame_trans hframe hwrite (by simp), (u.write_draws _ _).trans hdraws, ?_⟩
  rw [u.read_write_self 15 _ hsp]
  exact toNat_add_one (s.read 15)

/-- Settles O42: push is its start with the register as it was. -/
theorem pushStoresThenIncrements : Obligations.PushStoresThenIncrements := by
  unfold Obligations.PushStoresThenIncrements
  intro s ra hwf
  refine ⟨fun h => ?_, fun f h => exec_push_fault.mpr ((s.memWrite_error_iff _ _ f).mpr h)⟩
  obtain ⟨t, ht, hpost⟩ := State.pushWord_of_writeFault_none (v := s.read ra) hwf h
  exact ⟨t, by simp [exec, execPush, ht], hpost⟩

/-- Settles O44: call is the start of a push of the next address, and then a write of PC. -/
theorem callPushesReturnAddress : Obligations.CallPushesReturnAddress := by
  unfold Obligations.CallPushesReturnAddress
  intro s k16 hwf
  refine ⟨fun h => ?_, fun f h => exec_call_fault.mpr ((s.memWrite_error_iff _ _ f).mpr h)⟩
  obtain ⟨t, ht, hstored, hframe, hdraws, hsp⟩ :=
    State.pushWord_of_writeFault_none (v := s.read 7 + 1#16) hwf h
  have hexec : exec (.call k16) s = .next (t.write 7 k16) := by simp [exec, execCall, State.pc, ht]
  have hpc : (7 : RegIdx) ≠ 0 := by decide
  have hne : (15 : RegIdx) ≠ 7 := by decide
  obtain ⟨hwrite, _, _⟩ := t.write_frame 7 k16
  refine ⟨t.write 7 k16, hexec, stored_write hstored _ _, regFrame_trans hframe hwrite (by simp),
    (t.write_draws _ _).trans hdraws, ?_, t.read_write_self 7 k16 hpc⟩
  rwa [t.read_write_ne 7 15 k16 hne]

/-! Pop and return (R198, R202) -/

/-- What a load answers does not depend on the registers. -/
theorem readFault_write (s : State) (i : RegIdx) (v a : Word) :
    Claims.readFault (s.write i v) a = Claims.readFault s a := by
  simp [Claims.readFault, Claims.portAt]

theorem readValue_write (s : State) (i : RegIdx) (v a : Word) :
    Claims.readValue (s.write i v) a = Claims.readValue s a := by
  simp [Claims.readValue]

/-- pop is a load at the decremented SP, from the state that holds it. -/
theorem exec_pop (s : State) (rd : RegIdx) :
    exec (.pop rd) s = (s.write 15 (s.read 15 - 1#16)).loadInto rd (s.read 15 - 1#16) := by
  have hsp : (s.write 15 (s.read 15 - 1#16)).sp = s.read 15 - 1#16 := s.read_write_self 15 _ (by decide)
  change (s.write 15 (s.read 15 - 1#16)).loadInto rd (s.write 15 (s.read 15 - 1#16)).sp = _
  rw [hsp]

/-- Settles O43: the load's two cases, after the write of SP. -/
theorem popDecrementsThenLoads : Obligations.PopDecrementsThenLoads := by
  unfold Obligations.PopDecrementsThenLoads
  intro s rd
  rw [exec_pop, ← readFault_write s 15 (s.read 15 - 1#16), ← readValue_write s 15 (s.read 15 - 1#16)]
  obtain ⟨hnone, hsome⟩ := (s.write 15 (s.read 15 - 1#16)).loadInto_loads rd (s.read 15 - 1#16)
  refine ⟨fun h => ?_, hsome⟩
  obtain ⟨t, ht, hvalue, hframe⟩ := hnone h
  refine ⟨t, ht, frame_trans (s.write_frame 15 _) hframe (by simp), hvalue, fun hne => ?_⟩
  obtain ⟨⟨hread, _⟩, _⟩ := hframe
  rw [hread 15 (by simpa using hne.symm), s.read_write_self 15 _ (by decide)]

/-- Settles O45: SP stays in RAM, so the call stores the next address there and the pop reads it back. -/
theorem popPcReturnsFromCall : Obligations.PopPcReturnsFromCall := by
  unfold Obligations.PopPcReturnsFromCall
  intro s k16 hwf hlo hhi
  have hhi' : (s.read 15).toNat < 0x200 := Nat.lt_succ_of_le hhi
  obtain ⟨hcall, _⟩ := callPushesReturnAddress s k16 hwf
  obtain ⟨t, ht, ⟨hram, _⟩, _, _, hsp, hpc⟩ := hcall (writeFault_ram s hlo hhi')
  have hsp' : t.advancePc.read 15 - 1#16 = s.read 15 := by
    have hinc : t.read 15 = s.read 15 + 1#16 := BitVec.eq_of_toNat_eq (hsp.trans (toNat_add_one _).symm)
    rw [t.read_advancePc_ne (by decide), hinc, BitVec.add_sub_cancel]
  obtain ⟨hpop, _⟩ := popDecrementsThenLoads t.advancePc 7
  rw [hsp'] at hpop
  obtain ⟨u, hu, _, hvalue, hdec⟩ := hpop (readFault_ram _ hlo hhi')
  refine ⟨t, u, ht, hpc, hu, ?_, hdec (by decide)⟩
  rw [hvalue (by decide), readValue_ram _ hlo hhi', State.advancePc_ram, hram, if_pos ⟨hlo, hhi', rfl⟩]

/-! ijne and djge (R213, R214, D13) -/

theorem read_write_pt (s : State) (pt : Word) (r : RegIdx) : (s.write 1 pt).read r = Claims.readWithPt s pt r := by
  unfold Claims.readWithPt
  split
  · next h => subst h; exact s.read_write_self 1 pt (by decide)
  · next h => exact s.read_write_ne 1 r pt h

/-- A branch after a PT update whose test decides `taken` on the registers after the update. -/
theorem State.branchIf_ptBranches (s : State) (pt : Word) {c : Word → Word → Bool} {r1 r2 : RegIdx} (off8 : BitVec 8)
    {taken : Prop} (hc : c (Claims.readWithPt s pt r1) (Claims.readWithPt s pt r2) = true ↔ taken) :
    Claims.PtBranches s pt off8 taken (.next ((s.write 1 pt).branchIf c r1 r2 off8)) := by
  rw [← read_write_pt, ← read_write_pt] at hc
  obtain ⟨t, ht, htaken, hnot⟩ := (s.write 1 pt).branchIf_branches off8 hc
  have hpt : (s.write 1 pt).read 1 = pt := s.read_write_self 1 pt (by decide)
  have hpc : (s.write 1 pt).read 7 = s.read 7 := s.read_write_ne 1 7 pt (by decide)
  by_cases h : taken
  · obtain ⟨htarget, hframe⟩ := htaken h
    obtain ⟨⟨hread, _⟩, _⟩ := id hframe
    refine ⟨t, ht, (hread 1 (by decide)).trans hpt, fun _ => ⟨hpc ▸ htarget, ?_⟩, fun hn => absurd h hn⟩
    exact frame_trans (s.write_frame 1 pt) hframe (by simp)
  · obtain rfl := hnot h
    exact ⟨_, ht, hpt, fun ht => absurd ht h, fun _ => s.write_frame 1 pt⟩

/-- Settles O47: ijne is the branch on unequal registers after PT plus one. -/
theorem ijneIncrementsThenCompares : Obligations.IjneIncrementsThenCompares := by
  unfold Obligations.IjneIncrementsThenCompares
  rintro s r1 r2 off8 pt hpt
  have hinc : s.pt + 1#16 = pt := by
    rw [hpt, BitVec.ofNat_add, BitVec.ofNat_toNat, BitVec.setWidth_eq, State.pt]
  subst hinc
  exact s.branchIf_ptBranches _ off8 bne_iff_ne

/-- Settles O48: djge is the branch on signed greater or equal after PT minus one. -/
theorem djgeDecrementsThenCompares : Obligations.DjgeDecrementsThenCompares := by
  unfold Obligations.DjgeDecrementsThenCompares
  rintro s r1 r2 off8 pt hpt
  have hdec : s.pt - 1#16 = pt := by
    rw [hpt, ofInt_sub, BitVec.ofInt_toInt]; rfl
  subst hdec
  exact s.branchIf_ptBranches _ off8 (signedGe_eq_true_iff _ _)

end Sys2Proof.Machine
end

section
/-! The loaders (spec/70_reset_and_hazards.md R275, R276): obligation O59. -/

namespace Sys2Proof.Machine

/-- A map with a pair that a loader does not take is refused whole (log entry 16). -/
theorem State.loadProgram_refused (s : State) {l : List (Nat × Nat)} {p : Nat × Nat} (hp : p ∈ l)
    (hbad : programPairOk p = false) : s.loadProgram l = .refused .programPairOutOfRange := by
  have hall : ¬ l.all programPairOk = true := fun h => by
    rw [List.all_eq_true.mp h p hp] at hbad
    cases hbad
  rw [State.loadProgram, if_neg hall]

theorem State.loadData_refused (s : State) {l : List (Nat × Nat)} {p : Nat × Nat} (hp : p ∈ l)
    (hbad : dataPairOk p = false) : s.loadData l = .refused .dataPairOutOfRange := by
  have hall : ¬ l.all dataPairOk = true := fun h => by
    rw [List.all_eq_true.mp h p hp] at hbad
    cases hbad
  rw [State.loadData, if_neg hall]

/-- One pair that a loader takes is listed. -/
theorem State.loadProgram_singleton (s : State) {a w : Nat} (h : programPairOk (a, w) = true) :
    s.loadProgram [(a, w)] = .next { s with rom := s.rom.put a (BitVec.ofNat 22 w) } := by
  simp [State.loadProgram, h]

theorem State.loadData_singleton (s : State) {a v : Nat} (h : dataPairOk (a, v) = true) :
    s.loadData [(a, v)] = .next { s with ram := Memory.write s.ram a (BitVec.ofNat 16 v) } := by
  simp [State.loadData, h]

/-- Settles O59, loader by loader. -/
theorem loadersWriteTheirStores : Obligations.LoadersWriteTheirStores := by
  unfold Obligations.LoadersWriteTheirStores
  refine ⟨fun s a w ha hw => ?program, fun s l p hp hbad => ?badProgram, fun s a v hwf hlo hhi hv => ?data,
    fun s l p hp hbad => ?badData⟩
  case program =>
    exact ⟨_, s.loadProgram_singleton (decide_eq_true ⟨ha, hw⟩), rfl, fun b => Cells.get_put s.rom a b _⟩
  case badProgram => exact s.loadProgram_refused hp (decide_eq_false (by omega))
  case data =>
    exact ⟨_, s.loadData_singleton (decide_eq_true ⟨hlo, hhi, hv⟩), rfl, fun b => Memory.read_write s.ram a b _ hwf⟩
  case badData => exact s.loadData_refused hp (decide_eq_false (by omega))

end Sys2Proof.Machine
end

section
/-! The numbers that binary16 patterns denote, and rounding to nearest (spec/41_fpu.md R150 to R153). -/

namespace Sys2Proof.Machine

/-! The pattern of a sign and a magnitude (R150) -/

/-- Exponent and fraction bits of a pattern. -/
def magOf (v : Word) : Nat := v.toNat % 32768

/-- The magnitude of a pattern in units of 2^-24. -/
def unitsOf (v : Word) : Nat := magUnits (magOf v)

theorem expOf_eq (v : Word) : Claims.expOf v = magOf v / 1024 := by
  unfold Claims.expOf magOf; omega

theorem fracOf_eq (v : Word) : Claims.fracOf v = magOf v % 1024 := by
  unfold Claims.fracOf magOf; omega

theorem isFinite_iff (v : Word) : Claims.IsFinite v ↔ magOf v < 0x7C00 := by
  unfold Claims.IsFinite Claims.expOf magOf; omega

theorem isZero_iff (v : Word) : Claims.IsZero v ↔ magOf v = 0 := by
  unfold Claims.IsZero
  rw [expOf_eq, fracOf_eq]; omega

theorem signed16_toNat (neg : Bool) {b : Nat} (hb : b < 32768) : (signed16 neg b).toNat = neg.toNat * 32768 + b := by
  rw [signed16, BitVec.toNat_append, BitVec.toNat_ofNat, Nat.mod_eq_of_lt hb, BitVec.toNat_ofBool,
    ← Nat.shiftLeft_add_eq_or_of_lt hb, Nat.shiftLeft_eq]

theorem magOf_signed16 (neg : Bool) {b : Nat} (hb : b < 32768) : magOf (signed16 neg b) = b := by
  rw [magOf, signed16_toNat neg hb]; omega

theorem signOf_signed16 (neg : Bool) {b : Nat} (hb : b < 32768) : Claims.signOf (signed16 neg b) = neg := by
  rw [Claims.signOf, signed16_toNat neg hb]
  cases neg <;> simp; omega

/-- A pattern is its sign and its magnitude bits. -/
theorem signed16_signOf_magOf (v : Word) : signed16 (Claims.signOf v) (magOf v) = v := by
  have hlt : magOf v < 32768 := Nat.mod_lt _ (by decide)
  apply BitVec.eq_of_toNat_eq
  rw [signed16_toNat _ hlt, Claims.signOf, magOf]
  by_cases h : 32768 ≤ v.toNat <;> simp [h] <;> omega

theorem infBits_eq (neg : Bool) : infBits neg = Claims.infinity neg := by cases neg <;> rfl

theorem signed16_zero (neg : Bool) : signed16 neg 0 = Claims.zeroWord neg := by cases neg <;> rfl

/-! The reading of a pattern (R150) -/

theorem halfOf_eq (v : Word) : halfOf v =
    if Claims.expOf v = 31 then (if Claims.fracOf v = 0 then .inf (Claims.signOf v) else .nan)
    else .finite (Claims.signOf v) (unitsOf v) := by
  have hexp : (v.extractLsb' 10 5).toNat = Claims.expOf v := by
    rw [BitVec.extractLsb'_toNat, Nat.shiftRight_eq_div_pow]; rfl
  have hfrac : (v.extractLsb' 0 10).toNat = Claims.fracOf v := by
    rw [BitVec.extractLsb'_toNat, Nat.shiftRight_zero]; rfl
  have hmag : Claims.expOf v * 1024 + Claims.fracOf v = magOf v := by
    rw [expOf_eq, fracOf_eq]; omega
  have hsign : v.msb = Claims.signOf v := BitVec.msb_eq_decide v
  simp only [halfOf, unitsOf, hexp, hfrac, hmag, hsign]

theorem halfOf_of_isNan {v : Word} (h : Claims.IsNan v) : halfOf v = .nan := by
  rw [halfOf_eq, if_pos h.1, if_neg h.2]

theorem halfOf_of_isInf {v : Word} (h : Claims.IsInf v) : halfOf v = .inf (Claims.signOf v) := by
  rw [halfOf_eq, if_pos h.1, if_pos h.2]

theorem halfOf_of_isFinite {v : Word} (h : Claims.IsFinite v) :
    halfOf v = .finite (Claims.signOf v) (unitsOf v) := by
  rw [halfOf_eq, if_neg h]

/-- The value of a pattern as a signed count of 2^-24. -/
theorem halfValue_eq (v : Word) :
    Claims.halfValue v = (signedUnits (Claims.signOf v) (unitsOf v) : ℚ) / 2 ^ 24 := by
  have hmag : (if Claims.expOf v = 0 then (Claims.fracOf v : ℚ) / 1024 / 2 ^ 14
      else (1 + (Claims.fracOf v : ℚ) / 1024) * 2 ^ (Claims.expOf v) / 2 ^ 15) = (unitsOf v : ℚ) / 2 ^ 24 := by
    rw [unitsOf, magUnits, ← expOf_eq, ← fracOf_eq]
    split
    · next h =>
      have hfrac : Claims.fracOf v = magOf v := by rw [expOf_eq] at h; rw [fracOf_eq]; omega
      rw [hfrac]; ring
    · next h =>
      obtain ⟨e, he⟩ : ∃ e, Claims.expOf v = e + 1 := ⟨Claims.expOf v - 1, by omega⟩
      rw [he, Nat.add_sub_cancel]
      push_cast
      ring
  rw [Claims.halfValue, hmag, signedUnits]
  split <;> push_cast <;> ring

/-! Rounding (R151, R152) -/

/-- The exact number of sign `neg` and magnitude `n / d` units. -/
def exactValue (neg : Bool) (n d : Nat) : ℚ := (signedUnits neg n : ℚ) / d / 2 ^ 24

section
variable (neg : Bool) (n d : Nat)

theorem abs_exactValue : |exactValue neg n d| = (n : ℚ) / d / 2 ^ 24 := by
  have habs : |(signedUnits neg n : ℚ)| = n := by cases neg <;> simp [signedUnits]
  rw [exactValue, abs_div, abs_div, habs, Nat.abs_cast, abs_of_pos (by norm_num : (0 : ℚ) < 2 ^ 24)]

theorem magDistance_cast (c : Nat) : (magDistance n d c : ℚ) = |(magUnits c : ℚ) * d - n| := by
  unfold magDistance
  rcases le_total n (magUnits c * d) with h | h
  · rw [Nat.sub_eq_zero_of_le h, Nat.zero_add, Nat.cast_sub h, Nat.cast_mul, abs_of_nonneg]
    rw [sub_nonneg]
    exact_mod_cast h
  · rw [Nat.sub_eq_zero_of_le h, Nat.add_zero, Nat.cast_sub h, Nat.cast_mul, abs_sub_comm, abs_of_nonneg]
    rw [sub_nonneg]
    exact_mod_cast h

variable {d} (hd : 0 < d)
include hd

/-- How far a pattern is from the exact number: by magnitudes if the signs agree. -/
theorem abs_halfValue_sub_of_sign {u : Word} (h : Claims.signOf u = neg) :
    |Claims.halfValue u - exactValue neg n d| = (magDistance n d (magOf u) : ℚ) / d / 2 ^ 24 := by
  have hd' : (d : ℚ) ≠ 0 := by positivity
  have hdiff : Claims.halfValue u - exactValue neg n d =
      (signedUnits neg 1 : ℚ) * (((unitsOf u : ℚ) * d - n) / d / 2 ^ 24) := by
    rw [halfValue_eq, exactValue, h, unitsOf]
    cases neg
    · simp [signedUnits]; field_simp
    · simp [signedUnits]; field_simp; ring
  have hsign : |(signedUnits neg 1 : ℚ)| = 1 := by cases neg <;> simp [signedUnits]
  rw [hdiff, abs_mul, hsign, one_mul, abs_div, abs_div, magDistance_cast, ← unitsOf, Nat.abs_cast,
    abs_of_pos (by norm_num : (0 : ℚ) < 2 ^ 24)]

/-- A pattern of the other sign is no nearer than zero. -/
theorem le_abs_halfValue_sub_of_ne_sign {u : Word} (h : Claims.signOf u ≠ neg) :
    (magDistance n d 0 : ℚ) / d / 2 ^ 24 ≤ |Claims.halfValue u - exactValue neg n d| := by
  have hzero : magDistance n d 0 = n := by simp [magDistance, magUnits]
  have hnonneg : (0 : ℚ) ≤ (unitsOf u : ℚ) / 2 ^ 24 := by positivity
  have hdiff : |Claims.halfValue u - exactValue neg n d| = |(unitsOf u : ℚ) / 2 ^ 24 + (n : ℚ) / d / 2 ^ 24| := by
    rw [halfValue_eq, exactValue, Bool.eq_not_of_ne h]
    cases neg
    · rw [← abs_neg]; congr 1; simp [signedUnits]; ring
    · congr 1; simp [signedUnits]; ring
  rw [hzero, hdiff, abs_of_nonneg (by positivity)]
  linarith

/-- The nearest magnitude is nearest among the patterns of both signs, and even if another value is as near. -/
theorem nearest_of_magnitudes {w : Word} (hsign : Claims.signOf w = neg)
    (hle : ∀ c, magDistance n d (magOf w) ≤ magDistance n d c)
    (htie : ∀ c, c ≠ magOf w → magDistance n d c = magDistance n d (magOf w) → magOf w % 2 = 0) (u : Word) :
    |Claims.halfValue w - exactValue neg n d| ≤ |Claims.halfValue u - exactValue neg n d| ∧
      (Claims.halfValue u ≠ Claims.halfValue w →
        |Claims.halfValue u - exactValue neg n d| = |Claims.halfValue w - exactValue neg n d| → magOf w % 2 = 0) := by
  have hscale : ∀ {c c' : Nat}, (magDistance n d c : ℚ) / d / 2 ^ 24 ≤ (magDistance n d c' : ℚ) / d / 2 ^ 24 ↔
      magDistance n d c ≤ magDistance n d c' := by
    intro c c'
    rw [div_le_div_iff_of_pos_right (by norm_num), div_le_div_iff_of_pos_right (by exact_mod_cast hd), Nat.cast_le]
  rw [abs_halfValue_sub_of_sign neg n hd hsign]
  by_cases hu : Claims.signOf u = neg
  · rw [abs_halfValue_sub_of_sign neg n hd hu]
    refine ⟨hscale.mpr (hle _), fun hne heq => htie (magOf u) (fun hmag => hne ?_) ?_⟩
    · rw [halfValue_eq, halfValue_eq, unitsOf, unitsOf, hu, hsign, hmag]
    · exact le_antisymm (hscale.mp heq.le) (hscale.mp heq.ge)
  · have hother := le_abs_halfValue_sub_of_ne_sign neg n hd hu
    refine ⟨(hscale.mpr (hle 0)).trans hother, fun _ heq => ?_⟩
    by_cases hmag : magOf w = 0
    · rw [hmag]
    · exact htie 0 (Ne.symm hmag) (le_antisymm (hscale.mp (hother.trans heq.le)) (hle 0))

theorem abs_exactValue_lt_iff : |exactValue neg n d| < 65520 ↔ n < 65520 * 2 ^ 24 * d := by
  rw [abs_exactValue, div_lt_iff₀ (by norm_num), div_lt_iff₀ (by exact_mod_cast hd)]
  exact_mod_cast Iff.rfl

theorem exactValue_neg_iff : exactValue neg n d < 0 ↔ neg = true ∧ n ≠ 0 := by
  have hcount : exactValue neg n d < 0 ↔ signedUnits neg n < 0 := by
    rw [exactValue, div_div, div_lt_iff₀ (by positivity), zero_mul]
    exact_mod_cast Iff.rfl
  rw [hcount]
  cases neg <;> simp [signedUnits]
  omega

theorem exactValue_eq_zero_iff : exactValue neg n d = 0 ↔ n = 0 := by
  rw [← abs_eq_zero, abs_exactValue, div_div, div_eq_zero_iff, Nat.cast_eq_zero]
  have hpos : (d : ℚ) * 2 ^ 24 ≠ 0 := by positivity
  simp [hd.ne']

/-- A magnitude of 0 rounds to the zero of its sign (R152). -/
theorem roundHalf_zero : roundHalf neg 0 d = Claims.zeroWord neg := by
  obtain ⟨_, hnear⟩ := roundMag_nearest 0 d hd (by positivity)
  have hle : magUnits (roundMag 0 d) * d ≤ 0 := by simpa [magDistance, magUnits] using (hnear 0).1
  have hmag : magUnits (roundMag 0 d) = 0 := by
    rcases Nat.mul_eq_zero.mp (Nat.le_zero.mp hle) with h | h
    · exact h
    · omega
  have hround : roundMag 0 d = 0 := magUnits_strictMono.injective hmag
  rw [roundHalf, hround, signed16_zero]

/-- Rounding gives the nearest number, ties to even, with the overflow and the sign of R151 and R152. -/
theorem roundHalf_roundsTo : Claims.RoundsTo (exactValue neg n d) (roundHalf neg n d) := by
  have hsignOf : exactValue neg n d ≠ 0 → neg = decide (exactValue neg n d < 0) := by
    intro hne
    rw [ne_eq, exactValue_eq_zero_iff neg n hd] at hne
    rw [Bool.eq_iff_iff, decide_eq_true_iff, exactValue_neg_iff neg n hd]
    simp [hne]
  by_cases hfin : n < 65520 * 2 ^ 24 * d
  · obtain ⟨hlt, hnear⟩ := roundMag_nearest n d hd hfin
    have hb : roundMag n d < 32768 := by omega
    have hmag : magOf (roundHalf neg n d) = roundMag n d := magOf_signed16 neg hb
    have hsign : Claims.signOf (roundHalf neg n d) = neg := signOf_signed16 neg hb
    have heven : (roundHalf neg n d).toNat % 2 = magOf (roundHalf neg n d) % 2 := by unfold magOf; omega
    have hall := nearest_of_magnitudes neg n hd hsign (hmag ▸ fun c => (hnear c).1) (hmag ▸ fun c => (hnear c).2)
    refine ⟨fun _ => ⟨?_, fun u _ => (hall u).1, fun u _ => ?_⟩, fun hbig => ?_, fun hne => hsign.trans (hsignOf hne)⟩
    · rw [isFinite_iff, hmag]; exact hlt
    · rw [heven]; exact (hall u).2
    · exact absurd ((abs_exactValue_lt_iff neg n hd).mpr hfin) hbig.not_gt
  · have hover : roundHalf neg n d = infBits neg := by
      rw [roundHalf, roundMag_overflow n d (Nat.le_of_not_lt hfin), infBits]
    have hsign : Claims.signOf (roundHalf neg n d) = neg := by
      rw [hover]; exact signOf_signed16 neg (by decide)
    have hne : exactValue neg n d ≠ 0 := by
      rw [ne_eq, exactValue_eq_zero_iff neg n hd]; rintro rfl; simp [hd] at hfin
    refine ⟨fun hsmall => ?_, fun _ => ?_, fun hne => hsign.trans (hsignOf hne)⟩
    · exact absurd ((abs_exactValue_lt_iff neg n hd).mp hsmall) hfin
    · rw [hover, infBits_eq, ← hsignOf hne]

end

end Sys2Proof.Machine
end

section
/-! The half-precision instructions (spec/41_fpu.md R150 to R161): obligations O50 to O58. -/

namespace Sys2Proof.Machine

/-! Results of FPU operations (R153, D23) -/

/-- `w` is the result `r`, or some NaN pattern where the result is a NaN. -/
def Gives (r : Option Word) (w : Word) : Prop := (∀ v, r = some v → w = v) ∧ (r = none → Claims.IsNan w)

theorem freeNan_toNat (n : Nat) :
    (freeNan n).toNat = ((Config.freeNanSign n).toNat * 32 + 31) * 1024 + ((Config.freeNanFraction n).val + 1) := by
  have hfrac : (Config.freeNanFraction n).val + 1 < 2 ^ 10 := by
    have := (Config.freeNanFraction n).isLt
    omega
  rw [freeNan, BitVec.toNat_append, BitVec.toNat_append, BitVec.toNat_ofBool, BitVec.toNat_ofNat, BitVec.toNat_ofNat,
    Nat.mod_eq_of_lt hfrac, ← Nat.shiftLeft_add_eq_or_of_lt hfrac,
    ← Nat.shiftLeft_add_eq_or_of_lt (by decide : 31 % 2 ^ 5 < 2 ^ 5), Nat.shiftLeft_eq, Nat.shiftLeft_eq]
  norm_num

/-- A free NaN has exponent 31 and a fraction that is not 0. -/
theorem freeNan_isNan (n : Nat) : Claims.IsNan (freeNan n) := by
  have hfrac := (Config.freeNanFraction n).isLt
  rw [Claims.IsNan, Claims.expOf, Claims.fracOf, freeNan_toNat]
  omega

/-- An instruction that writes an FPU result completes within the frame of its destination, which holds that result. -/
theorem floatResult_of_writeHalf {s : State} {i : Instr} {rd : RegIdx} {r : Option Word} {P : Word → Prop}
    (hi : exec i s = .next (s.writeHalf rd r)) (hP : ∀ w, Gives r w → P w) :
    Claims.FloatResult s rd (exec i s) P := by
  rcases s.writeHalf_cases rd r with ⟨v, rfl, hw⟩ | ⟨rfl, hw⟩
  · obtain ⟨hreg, hmem, _⟩ := s.write_frame rd v
    refine ⟨s.write rd v, hi.trans (congrArg _ hw), ⟨hreg, hmem⟩, fun hrd => hP _ ?_⟩
    simp [Gives, s.read_write_self rd v hrd]
  · obtain ⟨hreg, hmem, _⟩ := State.write_frame { s with draws := s.draws + 1 } rd (freeNan s.draws)
    refine ⟨_, hi.trans (congrArg _ hw), ⟨hreg, hmem⟩, fun hrd => hP _ ?_⟩
    simpa [Gives, State.read_write_self _ rd _ hrd] using freeNan_isNan s.draws

theorem gives_some {v w : Word} : Gives (some v) w ↔ w = v := by
  simp [Gives, eq_comm]

theorem gives_none {w : Word} : Gives none w ↔ Claims.IsNan w := by
  simp [Gives]

/-! Arithmetic on finite numbers (R154 to R157) -/

theorem magUnits_eq_zero_iff (b : Nat) : magUnits b = 0 ↔ b = 0 := by
  have hzero : magUnits 0 = 0 := by simp [magUnits]
  rw [← hzero, magUnits_strictMono.injective.eq_iff, hzero]

theorem isZero_iff_unitsOf (v : Word) : Claims.IsZero v ↔ unitsOf v = 0 := by
  rw [isZero_iff, unitsOf, magUnits_eq_zero_iff]

/-- A pattern is a zero of a sign exactly if it has that sign and is a zero. -/
theorem eq_zeroWord_iff (v : Word) (neg : Bool) :
    v = Claims.zeroWord neg ↔ Claims.signOf v = neg ∧ Claims.IsZero v := by
  constructor
  · rintro rfl
    cases neg <;> decide
  · rintro ⟨hsign, hzero⟩
    rw [← signed16_signOf_magOf v, hsign, (isZero_iff v).mp hzero, signed16_zero]

theorem roundsTo_zeroWord (neg : Bool) : Claims.RoundsTo 0 (Claims.zeroWord neg) := by
  have hround := roundHalf_roundsTo neg 0 one_pos
  rwa [roundHalf_zero neg one_pos, (exactValue_eq_zero_iff neg 0 one_pos).mpr rfl] at hround

/-- An integer is its sign and its magnitude. -/
theorem signedUnits_natAbs (r : Int) : signedUnits (decide (r < 0)) r.natAbs = r := by
  unfold signedUnits
  split
  · next h => have := of_decide_eq_true h; omega
  · next h => have := of_decide_eq_false (Bool.eq_false_of_not_eq_true h); omega

theorem signedUnits_not (neg : Bool) (u : Nat) : signedUnits (!neg) u = -signedUnits neg u := by
  cases neg <;> simp [signedUnits]

theorem signedUnits_mul (na nb : Bool) (ua ub : Nat) :
    signedUnits (na ^^ nb) (ua * ub) = signedUnits na ua * signedUnits nb ub := by
  cases na <;> cases nb <;> simp [signedUnits]

/-- The exact sum is rounded once, and a zero sum is +0 but for two negative zeros (R151, R153). -/
theorem addFinite_spec (na : Bool) (ua : Nat) (nb : Bool) (ub : Nat) {x : ℚ}
    (hx : x = ((signedUnits na ua + signedUnits nb ub : Int) : ℚ) / 2 ^ 24) :
    Claims.RoundsTo x (addFinite na ua nb ub) ∧
      (x = 0 → addFinite na ua nb ub = Claims.zeroWord (na && nb && ua == 0 && ub == 0)) := by
  have hzero : x = 0 ↔ signedUnits na ua + signedUnits nb ub = 0 := by
    rw [hx, div_eq_zero_iff, or_iff_left (by norm_num), Int.cast_eq_zero]
  simp only [addFinite]
  split
  · next hr =>
    rw [signed16_zero, hzero.mpr hr]
    exact ⟨roundsTo_zeroWord _, fun _ => rfl⟩
  · next hr =>
    refine ⟨?_, fun h => absurd (hzero.mp h) hr⟩
    have hexact := roundHalf_roundsTo (decide (signedUnits na ua + signedUnits nb ub < 0))
      (signedUnits na ua + signedUnits nb ub).natAbs one_pos
    rwa [exactValue, signedUnits_natAbs, Nat.cast_one, div_one, ← hx] at hexact

/-- The flag of two negative zeros. -/
theorem negative_zeros_eq (na nb : Bool) (a b : Word) (sb : Bool) (hna : Claims.signOf a = na)
    (hnb : (Claims.signOf b = sb) ↔ nb = true) :
    (na && nb && unitsOf a == 0 && unitsOf b == 0) =
      decide (a = Claims.zeroWord true ∧ b = Claims.zeroWord sb) := by
  rw [Bool.eq_iff_iff, decide_eq_true_iff, eq_zeroWord_iff, eq_zeroWord_iff, isZero_iff_unitsOf, isZero_iff_unitsOf,
    hnb, hna]
  simp only [Bool.and_eq_true, beq_iff_eq]
  tauto

/-- Settles O50: fadd of two finite numbers is `addFinite` of their counts. -/
theorem faddRoundsExactSum : Obligations.FaddRoundsExactSum := by
  unfold Obligations.FaddRoundsExactSum
  intro s rd ra rb
  refine floatResult_of_writeHalf rfl fun w hw ha hb => ?_
  rw [halfOf_of_isFinite ha, halfOf_of_isFinite hb, addHalf, gives_some] at hw
  obtain ⟨hround, hzero⟩ := addFinite_spec (Claims.signOf (s.read ra)) (unitsOf (s.read ra))
    (Claims.signOf (s.read rb)) (unitsOf (s.read rb))
    (x := Claims.halfValue (s.read ra) + Claims.halfValue (s.read rb)) (by
      rw [halfValue_eq, halfValue_eq]; push_cast; ring)
  rw [negative_zeros_eq _ _ _ _ true rfl Iff.rfl] at hzero
  subst hw
  exact ⟨hround, hzero⟩

/-- Settles O51: fsub of two finite numbers is `addFinite` with the second sign turned. -/
theorem fsubRoundsExactDifference : Obligations.FsubRoundsExactDifference := by
  unfold Obligations.FsubRoundsExactDifference
  intro s rd ra rb
  refine floatResult_of_writeHalf rfl fun w hw ha hb => ?_
  rw [halfOf_of_isFinite ha, halfOf_of_isFinite hb, subHalf, negHalf, addHalf, gives_some] at hw
  obtain ⟨hround, hzero⟩ := addFinite_spec (Claims.signOf (s.read ra)) (unitsOf (s.read ra))
    (!Claims.signOf (s.read rb)) (unitsOf (s.read rb))
    (x := Claims.halfValue (s.read ra) - Claims.halfValue (s.read rb)) (by
      rw [halfValue_eq, halfValue_eq, signedUnits_not]; push_cast; ring)
  rw [negative_zeros_eq _ _ _ _ false rfl (by simp)] at hzero
  subst hw
  exact ⟨hround, hzero⟩

theorem exactValue_mul (a b : Word) :
    exactValue (Claims.signOf a ^^ Claims.signOf b) (unitsOf a * unitsOf b) (2 ^ 24) =
      Claims.halfValue a * Claims.halfValue b := by
  rw [exactValue, signedUnits_mul, halfValue_eq, halfValue_eq]
  push_cast
  ring

theorem exactValue_div (a b : Word) :
    exactValue (Claims.signOf a ^^ Claims.signOf b) (unitsOf a * 2 ^ 24) (unitsOf b) =
      Claims.halfValue a / Claims.halfValue b := by
  rw [exactValue, halfValue_eq, halfValue_eq]
  cases Claims.signOf a <;> cases Claims.signOf b <;> simp [signedUnits] <;> ring

/-- Settles O52: fmul of two finite numbers rounds the product of their counts, in units of 2^-48. -/
theorem fmulRoundsExactProduct : Obligations.FmulRoundsExactProduct := by
  unfold Obligations.FmulRoundsExactProduct
  intro s rd ra rb
  refine floatResult_of_writeHalf rfl fun w hw ha hb => ?_
  rw [halfOf_of_isFinite ha, halfOf_of_isFinite hb, mulHalf, gives_some] at hw
  subst hw
  have hpow : 0 < 2 ^ 24 := by norm_num
  constructor
  · rw [← exactValue_mul]
    exact roundHalf_roundsTo _ _ hpow
  · intro hzero
    rw [isZero_iff_unitsOf, isZero_iff_unitsOf, ← Nat.mul_eq_zero] at hzero
    rw [hzero, roundHalf_zero _ hpow]

/-- Settles O53: fdiv of two finite numbers rounds the quotient of their counts. -/
theorem fdivRoundsExactQuotient : Obligations.FdivRoundsExactQuotient := by
  unfold Obligations.FdivRoundsExactQuotient
  intro s rd ra rb
  refine floatResult_of_writeHalf rfl fun w hw ha hb => ?_
  rw [halfOf_of_isFinite ha, halfOf_of_isFinite hb, divHalf] at hw
  simp only [isZero_iff_unitsOf]
  by_cases hdiv : unitsOf (s.read rb) = 0
  · refine ⟨fun h => absurd hdiv h, fun _ hnum => ?_⟩
    rwa [if_pos hdiv, if_neg hnum, gives_some, infBits_eq] at hw
  · rw [if_neg hdiv, gives_some] at hw
    subst hw
    have hpos : 0 < unitsOf (s.read rb) := Nat.pos_of_ne_zero hdiv
    refine ⟨fun _ => ⟨?_, fun hnum => ?_⟩, fun h => absurd h hdiv⟩
    · rw [← exactValue_div]
      exact roundHalf_roundsTo _ _ hpos
    · rw [hnum, Nat.zero_mul, roundHalf_zero _ hpos]

/-! NaN, infinities and 0 / 0 (R153) -/

theorem addHalf_nan_right (x : Half) : addHalf x .nan = none := by cases x <;> rfl

theorem mulHalf_nan_right (x : Half) : mulHalf x .nan = none := by cases x <;> rfl

theorem divHalf_nan_right (x : Half) : divHalf x .nan = none := by cases x <;> rfl

/-- The sum of a pattern and a number, where one of them is a NaN or an infinity. -/
theorem addHalf_special {a w : Word} {y : Half} (hw : Gives (addHalf (halfOf a) y) w) :
    (Claims.IsNan a ∨ y = .nan → Claims.IsNan w) ∧
    (∀ nb, Claims.IsInf a → y = .inf nb → Claims.signOf a ≠ nb → Claims.IsNan w) ∧
    (Claims.IsInf a → (∃ nb ub, y = .finite nb ub) ∨ y = .inf (Claims.signOf a) →
      w = Claims.infinity (Claims.signOf a)) ∧
    (∀ nb, Claims.IsFinite a → y = .inf nb → w = Claims.infinity nb) := by
  refine ⟨?nan, ?cancel, ?left, ?right⟩
  case nan =>
    rintro (ha | rfl)
    · rwa [halfOf_of_isNan ha, addHalf, gives_none] at hw
    · rwa [addHalf_nan_right, gives_none] at hw
  case cancel =>
    rintro nb ha rfl hne
    rwa [halfOf_of_isInf ha, addHalf, if_neg hne, gives_none] at hw
  case left =>
    rintro ha (⟨nb, ub, rfl⟩ | rfl)
    · rwa [halfOf_of_isInf ha, addHalf, gives_some, infBits_eq] at hw
    · rwa [halfOf_of_isInf ha, addHalf, if_pos rfl, gives_some, infBits_eq] at hw
  case right =>
    rintro nb ha rfl
    rwa [halfOf_of_isFinite ha, addHalf, gives_some, infBits_eq] at hw

/-- Settles O54: fadd adds the second operand as it reads, fsub with its sign turned. -/
theorem addSubSpecialValues : Obligations.AddSubSpecialValues := by
  unfold Obligations.AddSubSpecialValues
  intro s rd ra rb a b
  refine ⟨floatResult_of_writeHalf rfl fun w (hw : Gives (addHalf (halfOf a) (halfOf b)) w) => ?fadd,
    floatResult_of_writeHalf rfl fun w (hw : Gives (addHalf (halfOf a) (negHalf (halfOf b))) w) => ?fsub⟩
  case fadd =>
    obtain ⟨hnan, hcancel, hleft, hright⟩ := addHalf_special hw
    refine ⟨fun h => hnan (h.imp_right halfOf_of_isNan), fun ha hb => hcancel _ ha (halfOf_of_isInf hb),
      fun ha h => hleft ha ?_, fun ha hb => hright _ ha (halfOf_of_isInf hb)⟩
    rcases h with hb | ⟨hb, heq⟩
    · exact .inl ⟨_, _, halfOf_of_isFinite hb⟩
    · exact .inr (heq ▸ halfOf_of_isInf hb)
  case fsub =>
    have hnegNan (hb : Claims.IsNan b) : negHalf (halfOf b) = .nan := by rw [halfOf_of_isNan hb, negHalf]
    have hnegInf (hb : Claims.IsInf b) : negHalf (halfOf b) = .inf (!Claims.signOf b) := by
      rw [halfOf_of_isInf hb, negHalf]
    obtain ⟨hnan, hcancel, hleft, hright⟩ := addHalf_special hw
    refine ⟨fun h => hnan (h.imp_right hnegNan), fun ha hb heq => hcancel _ ha (hnegInf hb) (by simp [heq]),
      fun ha h => hleft ha ?_, fun ha hb => hright _ ha (hnegInf hb)⟩
    rcases h with hb | ⟨hb, hne⟩
    · exact .inl ⟨_, _, by rw [halfOf_of_isFinite hb, negHalf]⟩
    · exact .inr (by rw [hnegInf hb, Bool.eq_not_of_ne hne])

/-- A zero reads as the count 0. -/
theorem halfOf_of_isZero {v : Word} (h : Claims.IsZero v) : halfOf v = .finite (Claims.signOf v) 0 := by
  have hfin : Claims.IsFinite v := by rw [Claims.IsFinite, h.1]; decide
  rw [halfOf_of_isFinite hfin, (isZero_iff_unitsOf v).mp h]

/-- A number that is neither a NaN nor zero times an infinity is an infinity. -/
theorem mulHalf_inf_left (na : Bool) {v : Word} (hnan : ¬ Claims.IsNan v) (hzero : ¬ Claims.IsZero v) :
    mulHalf (.inf na) (halfOf v) = some (infBits (na ^^ Claims.signOf v)) := by
  by_cases hfin : Claims.IsFinite v
  · rw [halfOf_of_isFinite hfin, mulHalf, if_neg ((isZero_iff_unitsOf v).not.mp hzero)]
  · have hinf : Claims.IsInf v := ⟨not_not.mp hfin, not_not.mp fun h => hnan ⟨not_not.mp hfin, h⟩⟩
    rw [halfOf_of_isInf hinf, mulHalf]

theorem mulHalf_comm (x y : Half) : mulHalf x y = mulHalf y x := by
  cases x <;> cases y <;> simp [mulHalf, Bool.xor_comm, Nat.mul_comm]

/-- Settles O55, clause by clause, by what the operands read as. -/
theorem mulDivSpecialValues : Obligations.MulDivSpecialValues := by
  unfold Obligations.MulDivSpecialValues
  intro s rd ra rb a b
  refine ⟨floatResult_of_writeHalf rfl fun w (hw : Gives (mulHalf (halfOf a) (halfOf b)) w) => ?fmul,
    floatResult_of_writeHalf rfl fun w (hw : Gives (divHalf (halfOf a) (halfOf b)) w) => ?fdiv⟩
  case fmul =>
    refine ⟨?nan, ?zeroInf, ?inf⟩
    case nan =>
      rintro (ha | hb)
      · rwa [halfOf_of_isNan ha, mulHalf, gives_none] at hw
      · rwa [halfOf_of_isNan hb, mulHalf_nan_right, gives_none] at hw
    case zeroInf =>
      rintro (⟨ha, hb⟩ | ⟨ha, hb⟩)
      · rwa [halfOf_of_isInf ha, halfOf_of_isZero hb, mulHalf, if_pos rfl, gives_none] at hw
      · rwa [halfOf_of_isZero ha, halfOf_of_isInf hb, mulHalf, if_pos rfl, gives_none] at hw
    case inf =>
      rintro (⟨ha, hnan, hzero⟩ | ⟨hnan, hzero, hb⟩)
      · rwa [halfOf_of_isInf ha, mulHalf_inf_left _ hnan hzero, gives_some, infBits_eq] at hw
      · rwa [mulHalf_comm, halfOf_of_isInf hb, mulHalf_inf_left _ hnan hzero, gives_some, infBits_eq,
          Bool.xor_comm] at hw
  case fdiv =>
    refine ⟨?nan', ?noValue, ?infLeft, ?infRight⟩
    case nan' =>
      rintro (ha | hb)
      · rwa [halfOf_of_isNan ha, divHalf, gives_none] at hw
      · rwa [halfOf_of_isNan hb, divHalf_nan_right, gives_none] at hw
    case noValue =>
      rintro (⟨ha, hb⟩ | ⟨ha, hb⟩)
      · rwa [halfOf_of_isInf ha, halfOf_of_isInf hb, divHalf, gives_none] at hw
      · rwa [halfOf_of_isZero ha, halfOf_of_isZero hb, divHalf, if_pos rfl, if_pos rfl, gives_none] at hw
    case infLeft =>
      intro ha hb
      rwa [halfOf_of_isInf ha, halfOf_of_isFinite hb, divHalf, gives_some, infBits_eq] at hw
    case infRight =>
      intro ha hb
      rwa [halfOf_of_isFinite ha, halfOf_of_isInf hb, divHalf, gives_some, signed16_zero] at hw

/-! Conversions (R159 to R161) -/

/-- The value of a pattern truncated toward zero is its signed count of whole units. -/
theorem trunc_halfValue (v : Word) :
    (if Claims.halfValue v < 0 then ⌈Claims.halfValue v⌉ else ⌊Claims.halfValue v⌋) =
      signedUnits (Claims.signOf v) (unitsOf v / 2 ^ 24) := by
  have hfloor : ⌊(unitsOf v : ℚ) / 2 ^ 24⌋ = ((unitsOf v / 2 ^ 24 : Nat) : Int) := by
    have hdiv := Rat.floor_intCast_div_natCast (unitsOf v) (2 ^ 24)
    rwa [Int.cast_natCast, Nat.cast_pow, Nat.cast_ofNat] at hdiv
  rw [halfValue_eq]
  cases Claims.signOf v with
  | false =>
    have hnonneg : ¬ (unitsOf v : ℚ) / 2 ^ 24 < 0 := not_lt.mpr (by positivity)
    simpa [signedUnits, hnonneg] using hfloor
  | true =>
    rcases Nat.eq_zero_or_pos (unitsOf v) with hzero | hpos
    · simp [signedUnits, hzero]
    · have hneg : -(unitsOf v : ℚ) / 2 ^ 24 < 0 := by
        rw [neg_div, neg_lt_zero]; positivity
      simp only [signedUnits, if_true, Int.cast_neg, Int.cast_natCast, if_pos hneg]
      rw [neg_div, Int.ceil_neg, hfloor]

/-- Settles O56: ftoi of a finite number is one write of its truncated count. -/
theorem ftoiTruncates : Obligations.FtoiTruncates := by
  unfold Obligations.FtoiTruncates
  intro s rd ra hfin
  rw [trunc_halfValue]
  refine completes_of_exec_write (· = _) ?_ rfl
  simp only [exec, execFtoi, halfOf_of_isFinite hfin, halfToInt]

/-- Settles O57: a NaN or an infinity has no integer. -/
theorem ftoiFaultsOnNanAndInfinity : Obligations.FtoiFaultsOnNanAndInfinity := by
  unfold Obligations.FtoiFaultsOnNanAndInfinity
  intro s rd ra h
  rcases h with h | h
  · simp [exec, execFtoi, halfOf_of_isNan h, halfToInt]
  · simp [exec, execFtoi, halfOf_of_isInf h, halfToInt]

/-- An integer is rounded once, and 0 gives +0 (R160, R161). -/
theorem intToHalf_spec (i : Int) : Claims.RoundsTo (i : ℚ) (intToHalf i) ∧ (i = 0 → intToHalf i = 0#16) := by
  constructor
  · have hround := roundHalf_roundsTo (decide (i < 0)) (i.natAbs * 2 ^ 24) one_pos
    have hx : exactValue (decide (i < 0)) (i.natAbs * 2 ^ 24) 1 = i := by
      have hmul := signedUnits_mul (decide (i < 0)) false i.natAbs (2 ^ 24)
      rw [Bool.xor_false, signedUnits_natAbs] at hmul
      rw [exactValue, hmul]
      norm_num [signedUnits]
    rwa [hx] at hround
  · rintro rfl
    exact roundHalf_zero false one_pos

/-- Settles O58: each conversion is one register write of `intToHalf`. -/
theorem integersRoundToHalf : Obligations.IntegersRoundToHalf := by
  unfold Obligations.IntegersRoundToHalf
  constructor
  · intro s rd ra
    obtain ⟨hround, hzero⟩ := intToHalf_spec (s.read ra).toInt
    exact completes_of_exec_write (fun w => Claims.RoundsTo ((s.read ra).toInt : ℚ) w ∧ (s.read ra = 0#16 → w = 0#16))
      rfl ⟨hround, fun h => hzero (by rw [h]; rfl)⟩
  · intro s rd ra
    obtain ⟨hround, hzero⟩ := intToHalf_spec ((s.read ra).toNat : Int)
    rw [Int.cast_natCast] at hround
    exact completes_of_exec_write (fun w => Claims.RoundsTo ((s.read ra).toNat : ℚ) w ∧ (s.read ra = 0#16 → w = 0#16))
      rfl ⟨hround, fun h => hzero (by rw [h]; rfl)⟩

end Sys2Proof.Machine
end
